-- ==== Sys2Proof/Word.lean ====
section
/-!
DEFINITION. The word of the machine: the 10-bit cell in which a register, a memory cell and the program counter
are stored (spec/10_state.md R20, spec/20_memory.md R40), and a decimal digit of an instruction word (R60).
-/

namespace Sys2Proof

/-- A 10-bit unsigned cell. The block only ever stores 0..999 in one (R20, R55); the values 1000..1023 fit and are
excluded by an invariant, not by the type (R68; DESIGN CHOICE, log 1). -/
abbrev Word := BitVec 10

/-- A decimal digit, 0..9: the fields `d` and `n` of an instruction word (R60), and a register's index (R21). -/
abbrev Digit := Fin 10

/-- Every decimal digit names a register (R21: "a decimal digit is always a valid index"). -/
abbrev RegIndex := Digit

end Sys2Proof
end

