-- ==== Sys2Proof/Config.lean ====
section
/-!
DEFINITION. What an implementation fixes and the spec leaves `OPEN` (spec/00_scope.md R5): the instruction-count
ceiling INSN_LIMIT. The other open parameter, POWERON, is an argument of `State.powerOn` (Machine/State.lean). The
fixed parameters of R5 stand here under their own names.
-/

namespace Sys2Proof

/-- `NREG` of R5. -/
abbrev nReg : Nat := 10

/-- `VMAX` of R5: the greatest value a register or a cell holds. -/
abbrev vMax : Nat := 999

/-- `MOD` of R5: arithmetic results are reduced modulo this, never modulo 2^10 (R7). -/
abbrev modulus : Nat := 1000

/-- `MEMSIZE` of R5: the memory's cells have the addresses 0 to 999. -/
abbrev memSize : Nat := 1000

/-- The configuration of one machine, fixed for its life (spec/10_state.md R31: no instruction and no host command
writes it). The spec leaves the number open, so every statement is about every value of it (DESIGN CHOICE, log 3). -/
structure Config where
  /-- `INSN_LIMIT`, the instruction-count ceiling; the spec wants it at least 1 (R5), which `SafeState` says. -/
  insnLimit : Nat
  deriving DecidableEq, Repr

end Sys2Proof
end

