-- ==== Sys2Proof/Machine/Flags.lean ====
section
/-!
DEFINITION. The ALU (spec/42_register_arithmetic.md R120). The block has no flags (spec/10_state.md R30): a carry or an
overflow leaves no trace (R127 (c)), and the only test is `nz`, the condition of jump-if-nonzero (R127 (e)).
-/

namespace Sys2Proof.Machine

/-- `(a + b) mod 1000`: the exact sum of naturals, then reduced; never modulo 2^10 (R120, R7). -/
def add1000 (a b : Word) : Word := BitVec.ofNat 10 ((a.toNat + b.toNat) % modulus)

/-- `(a * b) mod 1000`: the exact product of naturals, then reduced; never modulo 2^10 (R120, R7). -/
def mul1000 (a b : Word) : Word := BitVec.ofNat 10 ((a.toNat * b.toNat) % modulus)

/-- The non-zero test (R120). -/
def nz (a : Word) : Bool := decide (a ≠ 0)

end Sys2Proof.Machine
end

