-- ==== Sys2Proof/Syntax.lean ====
section
/-!
DEFINITION. The instructions: one constructor per row of spec/opcode_table.json (spec/30_encoding.md R65, R66), the
row "no instruction: OpcodeError" among them.
-/

namespace Sys2Proof

/-- An instruction word, split into its two operand digits (R63). `d` and `n` are register indices, but for the
immediate `n` of opcodes 2, 3 and 4 (R64); halt reads neither. -/
inductive Instr where
  /-- `0dn` (R100): `d` the target register, `n` the tested register. -/
  | jumpIfNonzero (d n : Digit)
  /-- `1dn` (R101): both digits ignored, and kept so that the encoder gives the same word back. -/
  | halt (d n : Digit)
  /-- `2dn` (R121): `d` the destination, `n` the immediate. -/
  | loadImmediate (d n : Digit)
  /-- `3dn` (R122): `d` the destination and source, `n` the immediate. -/
  | addImmediate (d n : Digit)
  /-- `4dn` (R123): `d` the destination and source, `n` the immediate. -/
  | mulImmediate (d n : Digit)
  /-- `5dn` (R124): `d` the destination, `n` the source register. -/
  | move (d n : Digit)
  /-- `6dn` (R125): `d` the destination and first source, `n` the second source register. -/
  | addRegs (d n : Digit)
  /-- `7dn` (R126): `d` the destination and first source, `n` the second source register. -/
  | mulRegs (d n : Digit)
  /-- `8dn` (R150): `d` the destination, `n` the address register. -/
  | loadIndirect (d n : Digit)
  /-- `9dn` (R151): `d` the register whose value is stored, `n` the address register. -/
  | storeIndirect (d n : Digit)
  /-- The table's last row: a word 1000..1023, whose hundreds digit would be 10 (R68); `d` and `n` are its other
  two digits. Dispatch raises OpcodeError for it (R84; DEDUCED, log 18). -/
  | noInstruction (d n : Digit)
  deriving DecidableEq, Repr

/-- The number `op` that the decoder's first field has for this instruction (R60, R65, R68). -/
def Instr.opcode : Instr → Nat
  | .jumpIfNonzero _ _ => 0
  | .halt _ _ => 1
  | .loadImmediate _ _ => 2
  | .addImmediate _ _ => 3
  | .mulImmediate _ _ => 4
  | .move _ _ => 5
  | .addRegs _ _ => 6
  | .mulRegs _ _ => 7
  | .loadIndirect _ _ => 8
  | .storeIndirect _ _ => 9
  | .noInstruction _ _ => 10

/-- The tens digit of the instruction's word (R60). -/
def Instr.dDigit : Instr → Digit
  | .jumpIfNonzero d _ => d
  | .halt d _ => d
  | .loadImmediate d _ => d
  | .addImmediate d _ => d
  | .mulImmediate d _ => d
  | .move d _ => d
  | .addRegs d _ => d
  | .mulRegs d _ => d
  | .loadIndirect d _ => d
  | .storeIndirect d _ => d
  | .noInstruction d _ => d

/-- The units digit of the instruction's word (R60). -/
def Instr.nDigit : Instr → Digit
  | .jumpIfNonzero _ n => n
  | .halt _ n => n
  | .loadImmediate _ n => n
  | .addImmediate _ n => n
  | .mulImmediate _ n => n
  | .move _ n => n
  | .addRegs _ n => n
  | .mulRegs _ n => n
  | .loadIndirect _ n => n
  | .storeIndirect _ n => n
  | .noInstruction _ n => n

end Sys2Proof
end

