-- ==== Sys2Proof/WellFormed.lean ====
section
/-!
DEFINITION. Which terms of `Instr` stand for a word of the machine. A digit is in 0..9 by its type, and every digit is
a legal register index or immediate (spec/30_encoding.md R63, R67), so the ten opcodes have no check. The row
"no instruction" stands for 1000..1023 alone, because a cell has 10 bits (R68).
-/

namespace Sys2Proof

/-- The digits of a word 1000..1023: `1000 + 10*d + n` must fit in a 10-bit cell (R68). -/
def noInstructionDigitsFit (d n : Digit) : Bool :=
  decide (10 * d.val + n.val ≤ 23)

/-- The check, one arm per constructor. -/
def Instr.wellFormed : Instr → Bool
  | .jumpIfNonzero _ _ => true
  | .halt _ _ => true
  | .loadImmediate _ _ => true
  | .addImmediate _ _ => true
  | .mulImmediate _ _ => true
  | .move _ _ => true
  | .addRegs _ _ => true
  | .mulRegs _ _ => true
  | .loadIndirect _ _ => true
  | .storeIndirect _ _ => true
  | .noInstruction d n => noInstructionDigitsFit d n

/-- `i` is an instruction that some 10-bit word encodes. -/
abbrev Instr.WellFormed (i : Instr) : Prop := i.wellFormed = true

end Sys2Proof
end

