-- ==== Sys2Proof/Decode.lean ====
section
/-!
DEFINITION. The Instruction Codec (spec/30_encoding.md R60, R61, R65, R68): the decoder, total on every 10-bit word, and
the encoder. The instruction word is a decimal-digit format; no bit slice is read (R10, R62).
-/

namespace Sys2Proof

/-- The digit `k mod 10` of R10. -/
def digitOf (k : Nat) : Digit := ⟨k % 10, Nat.mod_lt k (by decide)⟩

/-- `w div 100` (R61): 0..9 for a word in 0..999, 10 for 1000..1023. -/
def opField (w : Word) : Nat := w.toNat / 100

/-- `(w div 10) mod 10` (R61). -/
def dField (w : Word) : Digit := digitOf (w.toNat / 10)

/-- `w mod 10` (R61). -/
def nField (w : Word) : Digit := digitOf w.toNat

/-- The opcode map of R65. The opcode alone selects the instruction; any `op` not in 0..9 is the table's "other" row,
which dispatch answers with OpcodeError (R84). -/
def instrOf (op : Nat) (d n : Digit) : Instr :=
  match op with
  | 0 => .jumpIfNonzero d n
  | 1 => .halt d n
  | 2 => .loadImmediate d n
  | 3 => .addImmediate d n
  | 4 => .mulImmediate d n
  | 5 => .move d n
  | 6 => .addRegs d n
  | 7 => .mulRegs d n
  | 8 => .loadIndirect d n
  | 9 => .storeIndirect d n
  | _ => .noInstruction d n

/-- The decoder: pure, with no failure mode (R61, R83). -/
def decode (w : Word) : Instr := instrOf (opField w) (dField w) (nField w)

/-- Why a number is no word of the machine at all. -/
inductive DecodeReject where
  /-- The number does not fit in a 10-bit cell (spec/10_state.md R20), so no cell can hold it. Safe: no meaning is
  claimed for it. -/
  | widerThanACell
  deriving DecidableEq, Repr

/-- The decoder on any number: rejected by name where no 10-bit cell holds the number. -/
def decodeNumber (v : Nat) : Except DecodeReject Instr :=
  if v < 1024 then .ok (decode (BitVec.ofNat 10 v)) else .error .widerThanACell

/-- `100*op + 10*d + n` (R60). -/
def wordOf (op : Nat) (d n : Digit) : Word := BitVec.ofNat 10 (100 * op + 10 * d.val + n.val)

/-- The encoder, an arm per row of R65's map (and R68's row "no instruction", whose hundreds digit is 10). -/
def encode : Instr → Word
  | .jumpIfNonzero d n => wordOf 0 d n
  | .halt d n => wordOf 1 d n
  | .loadImmediate d n => wordOf 2 d n
  | .addImmediate d n => wordOf 3 d n
  | .mulImmediate d n => wordOf 4 d n
  | .move d n => wordOf 5 d n
  | .addRegs d n => wordOf 6 d n
  | .mulRegs d n => wordOf 7 d n
  | .loadIndirect d n => wordOf 8 d n
  | .storeIndirect d n => wordOf 9 d n
  | .noInstruction d n => wordOf 10 d n

/-- The instruction read from the number `w` of an opcode-table row. An instruction is one 10-bit cell (R60, R69), so
`w` is that cell's value whatever whole number of bytes `nbits` says, and a number that no cell holds gives none
(DEDUCED, log 12). -/
def decodeTableWord (_nbits w : Nat) : Option Instr :=
  match decodeNumber w with
  | .ok i => some i
  | .error _ => none

end Sys2Proof
end

