-- ==== Sys2Proof/Machine/State.lean ====
section
/-!
DEFINITION. The machine's state as plain data: everything spec/10_state.md R33 lists, its reset value, and the reasons
a step can stop.
-/

namespace Sys2Proof.Machine

/-- The state-machine register `fsm` (R27), an enumeration with no numeric encoding. -/
inductive Fsm where
  /-- After power-on or LOAD, before RUN. -/
  | ready
  /-- Inside the fetch, decode and dispatch loop. -/
  | running
  /-- Terminal: opcode 1 executed. -/
  | halted
  /-- Terminal: a runtime fault was raised. -/
  | faulted
  deriving DecidableEq, Repr

/-- The kinds of runtime fault (spec/60_exceptions.md R170). A fault records its kind and nothing else (R28). These are
values of the machine's `fault` register, reached by a NEXT state; they are not the model's stops (DEDUCED, log 9). -/
inductive RuntimeFault where
  /-- "decoded opcode not in {0..9}" (R171). -/
  | opcodeError
  /-- pc out of range at fetch, or an indirect address out of range (R172). -/
  | addressError
  /-- "instruction-count ceiling reached without halting" (R173). -/
  | limitExceededError
  deriving DecidableEq, Repr

/-- One listed memory cell: its address and its word. The ISA has no bytes (spec/20_memory.md R41), so the unit is the
10-bit word. -/
abbrev MemCell := Nat × Word

/-- Memory: the cells that differ from what an unlisted address reads as, by rising address (DESIGN CHOICE, log 5). -/
abbrev Memory := List MemCell

/-- What an address that memory does not list reads as. After a LOAD it is the spec's zero fill (R200); before any LOAD
the spec gives a draw, and this value is the model's (DESIGN CHOICE, log 5). -/
def unlistedWord : Word := 0

/-- The canonical form: addresses strictly rise, and no cell is listed at the value an unlisted address reads as, so
that equal memories are equal lists. -/
abbrev Memory.wf (m : Memory) : Prop :=
  m.Pairwise (fun c c' => c.1 < c'.1) ∧ ∀ c ∈ m, c.2 ≠ unlistedWord

/-- Every listed cell is one the spec gives memory (address 0..999, R40) and holds a value in 0..999 (R55). -/
abbrev Memory.inRange (m : Memory) : Prop :=
  ∀ c ∈ m, c.1 < memSize ∧ c.2.toNat ≤ vMax

/-- The machine's state (R33), with the configuration that its step takes as an argument (R31; DESIGN CHOICE, log 3). -/
structure State where
  /-- INSN_LIMIT: a parameter, not the spec's state; nothing writes it (R31; DESIGN CHOICE, log 3). -/
  config : Config
  /-- The register file `x[0..9]` (R20). -/
  x : Vector Word 10
  /-- The unified instruction and data memory `mem[0..999]` (R29). -/
  mem : Memory
  /-- The program counter, 10 bits, 0..1000 (R23, R25). -/
  pc : Word
  /-- The instruction counter, a natural number (R26). -/
  ic : Nat
  /-- The state-machine register (R27). -/
  fsm : Fsm
  /-- The fault-status register, `none` unless `fsm` is Faulted (R28). -/
  fault : Option RuntimeFault
  deriving DecidableEq, Repr

/-- Why the model takes no step. A runtime fault of the spec is NOT here: it is a next state (DEDUCED, log 9). -/
inductive Fault where
  /-- Raised by `step` when `fsm` is not Running: "A step is defined only while fsm = Running" (R80). The machine is
  stuck until a host command. Safe: nothing is claimed of such a step (DESIGN CHOICE, log 6). -/
  | stepOutsideRunning (fsm : Fsm)
  /-- Raised by `run` if its loop's fuel ended before Halted or Faulted, which R89 rules out. Safe: no result is claimed
  (DEDUCED, log 11). -/
  | runWithoutResult
  deriving DecidableEq, Repr

/-- What has no meaning. -/
inductive Refusal where
  /-- Raised by an arm of `exec` whose instruction has no meaning yet; no arm of this model does. Safe. -/
  | notModelled (mnemonic : String)
  /-- Raised by `run` outside Ready: the spec refuses that RUN, "it returns neither a count nor a fault" (R91). Safe:
  nothing is claimed of it (DEDUCED, log 10). -/
  | runOutsideReady (fsm : Fsm)
  /-- Raised by `load` in Running, where LOAD "cannot occur" (R200). Safe: nothing is claimed of it (DEDUCED, log 10). -/
  | loadWhileRunning
  deriving DecidableEq, Repr

/-- Power-on (spec/70_reset_and_hazards.md R205): pc, ic, fault and fsm as the spec sets them (by its own
choice D8; UNVERIFIED, log 19); the configuration and the
draw POWERON (the registers and the cells) are arguments, as R5 asks. -/
def State.powerOn (config : Config) (x : Vector Word 10) (mem : Memory) : State :=
  { config := config, x := x, mem := mem, pc := 0, ic := 0, fsm := .ready, fault := none }

/-- The machine right after power-on, at the values the log names where the spec leaves them open: INSN_LIMIT 10000
(DESIGN CHOICE, log 3), every register 0 (DESIGN CHOICE, log 4), no cell listed (DESIGN CHOICE, log 5). -/
def State.reset : State :=
  State.powerOn ⟨10000⟩ (Vector.replicate 10 0) []

end Sys2Proof.Machine
end

