-- ==== Sys2Proof/Machine/Ops.lean ====
section
/-!
DEFINITION. The named operations over registers, memory, pc, ic, fsm and fault: every read and every write of the state
goes through one of these. Taking a runtime fault is ONE operation, `raise`.
-/

namespace Sys2Proof.Machine

/-! ## Memory (spec/20_memory.md) -/

/-- `MemRead(a, 1)` (R11, R46): the word the cell holds. A read has no side effect (R50). -/
def Memory.read : Memory → Nat → Word
  | [], _ => unlistedWord
  | c :: m, a => if c.1 = a then c.2 else Memory.read m a

/-- Drop the cell at `a`, so that it reads as an unlisted address. -/
def Memory.erase (m : Memory) (a : Nat) : Memory := m.filter (fun c => decide (c.1 ≠ a))

/-- List a cell at its place in the rising order of addresses. -/
def Memory.insert : Memory → Nat → Word → Memory
  | [], a, v => [(a, v)]
  | c :: m, a, v => if a < c.1 then (a, v) :: c :: m else c :: Memory.insert m a v

/-- `MemWrite(a, 1, v)` (R11): one whole word (R51); the canonical form is kept. -/
def Memory.write (m : Memory) (a : Nat) (v : Word) : Memory :=
  if v = unlistedWord then Memory.erase m a else Memory.insert (Memory.erase m a) a v

/-- Is `a` an address the spec gives memory (R40)? Every access is checked against this range (R45). -/
def addressExists (a : Nat) : Bool := decide (a ≤ 999)

/-! ## Registers (spec/10_state.md R20 to R22): none is hard-wired, none aliases another -/

/-- `x[i]` (R11). -/
def readReg (s : State) (i : RegIndex) : Word := s.x[i]

/-- `x[i] <- v` (R11). -/
def writeReg (s : State) (i : RegIndex) (v : Word) : State := { s with x := s.x.set i.val v i.isLt }

/-- `mem[a]` of a state (R11). -/
def readMem (s : State) (a : Nat) : Word := s.mem.read a

/-- `mem[a] <- v` of a state (R11). -/
def writeMem (s : State) (a : Nat) (v : Word) : State := { s with mem := s.mem.write a v }

/-! ## pc, ic and fsm -/

/-- `pc <- target`: a direct assignment, no offset and no + 1 (spec/41_control_transfer.md R100). -/
def jumpTo (s : State) (target : Word) : State := { s with pc := target }

/-- `pc <- pc + 1`, not reduced mod 1000: 999 becomes 1000 (spec/10_state.md R25; DEDUCED, log 2). -/
def advancePc (s : State) : State := { s with pc := s.pc + 1 }

/-- `ic <- ic + 1`, on natural numbers (R26, spec/40_execution_cycle.md R82). -/
def countInstruction (s : State) : State := { s with ic := s.ic + 1 }

/-- `fsm <- Halted` (R101). -/
def enterHalted (s : State) : State := { s with fsm := .halted }

/-- `raise <Fault>` (spec/00_scope.md R11, spec/60_exceptions.md R175): `fsm <- Faulted`, `fault <- kind`, nothing else
saved and nothing rolled back (the spec's own choice D7; UNVERIFIED, log 15). There is no
handler to go to and no return (R177, R178). -/
def raise (kind : RuntimeFault) (s : State) : State := { s with fsm := .faulted, fault := some kind }

/-! ## The parts of a step that every instruction shares (R80) -/

/-- The bounds-checked fetch (R81, R82): none where pc is outside 0..999, else the word the cell holds now (R46). -/
def fetch (s : State) : Option Word :=
  if addressExists s.pc.toNat then some (readMem s s.pc.toNat) else none

/-- The limit check after the execute phase (R88): only a step that left Running is checked, so a halt is not
(the place of the check is the spec's own choice D6; UNVERIFIED, log 14). -/
def limitCheck (s : State) : State :=
  if s.fsm = .running ∧ s.config.insnLimit ≤ s.ic then raise .limitExceededError s else s

/-- The host's RUN puts the machine in Running (R90). -/
def startRun (s : State) : State := { s with fsm := .running }

/-- Put a word where the next fetch reads: at pc, or at 0 where pc is outside memory (DESIGN CHOICE, log 8). -/
def placeAtPc (s : State) (w : Word) : State :=
  if addressExists s.pc.toNat then writeMem s s.pc.toNat w else writeMem (jumpTo s 0) 0 w

end Sys2Proof.Machine
end

