-- ==== Sys2Proof/Machine/Operands.lean ====
section
/-!
DEFINITION. The operand forms (spec/30_encoding.md R63, R64, spec/43_memory_access.md R152): a register named by a
digit, the immediate digit, and the address held by a register.
-/

namespace Sys2Proof.Machine

/-- A digit used as a register index (R63): the register's value. -/
def regOperand (s : State) (i : RegIndex) : Word := readReg s i

/-- The digit `n` of opcodes 2, 3 and 4 (R64): unsigned, zero-extended, neither scaled nor shifted. -/
def immOperand (n : Digit) : Word := BitVec.ofNat 10 n.val

/-- The effective address `x[n]` of opcodes 8 and 9 (R152): no offset, no scaling, no change of the register; none where
it is outside 0..999 (R45, R150, R151). -/
def indirectAddress (s : State) (n : RegIndex) : Option Nat :=
  let a := (readReg s n).toNat
  if addressExists a then some a else none

end Sys2Proof.Machine
end

