-- ==== Sys2Proof/Machine/Arithmetic.lean ====
section
/-!
DEFINITION. The meanings of opcodes 2 to 7 (spec/42_register_arithmetic.md): each writes `x[d]` and advances pc (R85).
Operands are read from the state before the write (R86).
-/

namespace Sys2Proof.Machine

/-- What opcodes 2 to 8 do with their result: `x[d] <- v`, then `pc <- pc + 1` (R85). -/
def writeRegAndAdvance (s : State) (d : RegIndex) (v : Word) : State := advancePc (writeReg s d v)

/-- load-immediate (R121): `x[d] <- n`. -/
def execLoadImmediate (d n : Digit) (s : State) : Host.Outcome State Fault Refusal :=
  .next (writeRegAndAdvance s d (immOperand n))

/-- add-immediate (R122): `x[d] <- add1000(x[d], n)`. -/
def execAddImmediate (d n : Digit) (s : State) : Host.Outcome State Fault Refusal :=
  .next (writeRegAndAdvance s d (add1000 (regOperand s d) (immOperand n)))

/-- mul-immediate (R123): `x[d] <- mul1000(x[d], n)`. -/
def execMulImmediate (d n : Digit) (s : State) : Host.Outcome State Fault Refusal :=
  .next (writeRegAndAdvance s d (mul1000 (regOperand s d) (immOperand n)))

/-- move (R124): `x[d] <- x[n]`. -/
def execMove (d n : Digit) (s : State) : Host.Outcome State Fault Refusal :=
  .next (writeRegAndAdvance s d (regOperand s n))

/-- add-regs (R125): `x[d] <- add1000(x[d], x[n])`. -/
def execAddRegs (d n : Digit) (s : State) : Host.Outcome State Fault Refusal :=
  .next (writeRegAndAdvance s d (add1000 (regOperand s d) (regOperand s n)))

/-- mul-regs (R126): `x[d] <- mul1000(x[d], x[n])`. -/
def execMulRegs (d n : Digit) (s : State) : Host.Outcome State Fault Refusal :=
  .next (writeRegAndAdvance s d (mul1000 (regOperand s d) (regOperand s n)))

end Sys2Proof.Machine
end

