-- ==== Sys2Proof/Machine/Control.lean ====
section
/-!
DEFINITION. The meanings of opcodes 0 and 1 (spec/41_control_transfer.md), and of a word that is no instruction
(spec/40_execution_cycle.md R84). A meaning is the execute phase with its pc update (R85); fetch, count and limit check
are the step's.
-/

namespace Sys2Proof.Machine

/-- jump-if-nonzero (R100): `if x[n] != 0 then pc <- x[d] else pc <- pc + 1`. The target is direct (DEDUCED, log 17). -/
def execJumpIfNonzero (d n : Digit) (s : State) : Host.Outcome State Fault Refusal :=
  if nz (regOperand s n) then .next (jumpTo s (regOperand s d)) else .next (advancePc s)

/-- halt (R101): `fsm <- Halted`, pc unchanged, the digits read by no one. -/
def execHalt (_d _n : Digit) (s : State) : Host.Outcome State Fault Refusal :=
  .next (enterHalted s)

/-- A word 1000..1023 (R68): dispatch raises OpcodeError (R84, R171); no register, cell or pc is written (R175 (b)). -/
def execNoInstruction (_d _n : Digit) (s : State) : Host.Outcome State Fault Refusal :=
  .next (raise .opcodeError s)

end Sys2Proof.Machine
end

