-- ==== Sys2Proof/Machine/MemoryAccess.lean ====
section
/-!
DEFINITION. The meanings of opcodes 8 and 9 (spec/43_memory_access.md). The address check is kept because the source
requires it (R150); where it fails, AddressError is raised and nothing is written (R175 (b)).
-/

namespace Sys2Proof.Machine

/-- load-indirect (R150): `x[d] <- mem[x[n]]`, the address read before `x[d]` is written (R86). -/
def execLoadIndirect (d n : Digit) (s : State) : Host.Outcome State Fault Refusal :=
  match indirectAddress s n with
  | none => .next (raise .addressError s)
  | some a => .next (writeRegAndAdvance s d (readMem s a))

/-- store-indirect (R151): `mem[x[n]] <- x[d]`. -/
def execStoreIndirect (d n : Digit) (s : State) : Host.Outcome State Fault Refusal :=
  match indirectAddress s n with
  | none => .next (raise .addressError s)
  | some a => .next (advancePc (writeMem s a (regOperand s d)))

end Sys2Proof.Machine
end

