-- ==== Sys2Proof/Machine/Dispatch.lean ====
section
/-!
DEFINITION. Dispatch by opcode (spec/40_execution_cycle.md R84): one arm per constructor of Instr.
-/

namespace Sys2Proof.Machine

def exec (i : Instr) (s : State) : Host.Outcome State Fault Refusal :=
  match i with
  | .jumpIfNonzero d n => Sys2Proof.Machine.execJumpIfNonzero d n s
  | .halt d n => Sys2Proof.Machine.execHalt d n s
  | .loadImmediate d n => Sys2Proof.Machine.execLoadImmediate d n s
  | .addImmediate d n => Sys2Proof.Machine.execAddImmediate d n s
  | .mulImmediate d n => Sys2Proof.Machine.execMulImmediate d n s
  | .move d n => Sys2Proof.Machine.execMove d n s
  | .addRegs d n => Sys2Proof.Machine.execAddRegs d n s
  | .mulRegs d n => Sys2Proof.Machine.execMulRegs d n s
  | .loadIndirect d n => Sys2Proof.Machine.execLoadIndirect d n s
  | .storeIndirect d n => Sys2Proof.Machine.execStoreIndirect d n s
  | .noInstruction d n => Sys2Proof.Machine.execNoInstruction d n s

end Sys2Proof.Machine
end

