-- ==== Sys2Proof/Machine/Step.lean ====
section
/-!
DEFINITION. One step of the machine (spec/40_execution_cycle.md R80): fetch, count, decode, execute, limit check.
-/

namespace Sys2Proof.Machine

/-- `step()` of R80. It is defined only in Running; elsewhere the model is stuck (DESIGN CHOICE, log 6). -/
def step (s : State) : Host.Outcome State Fault Refusal :=
  match s.fsm with
  | .running =>
    match fetch s with
    | none => .next (raise .addressError s)
    | some w =>
      match exec (decode w) (countInstruction s) with
      | .next t => .next (limitCheck t)
      | .fault r => .fault r
      | .refused r => .refused r
  | .ready => .fault (.stepOutsideRunning .ready)
  | .halted => .fault (.stepOutsideRunning .halted)
  | .faulted => .fault (.stepOutsideRunning .faulted)

/-- `s` with the word `w` where the next step fetches, in Running: it stands for the host's LOAD and RUN (DESIGN
CHOICE, log 8). One instruction is one 10-bit cell, so `nbits` says nothing more (DEDUCED, log 12). -/
def State.withFetchWord (s : State) (_nbits w : Nat) : State :=
  startRun (placeAtPc s (BitVec.ofNat 10 w))

end Sys2Proof.Machine
end

