-- ==== Sys2Proof/Machine/Load.lean ====
section
/-!
DEFINITION. The host command LOAD (spec/70_reset_and_hazards.md R200 to R204): the block's reset and program load.
It is a function beside `step`, since the host interface has no state (R8; DESIGN CHOICE, log 7).
-/

namespace Sys2Proof.Machine

/-- The errors LOAD returns (spec/60_exceptions.md R170, R174). They never put the machine in Faulted. -/
inductive LoadError where
  /-- A word is not an integer in 0..999 (R201). -/
  | formatError
  /-- The sequence has more than 1000 words (R202). -/
  | capacityError
  deriving DecidableEq, Repr

/-- What LOAD returns to the host (R200): `Ok(())` or `Err(error)`. -/
inductive LoadReply where
  | ok
  | err (e : LoadError)
  deriving DecidableEq, Repr

/-- Is the integer a word (R201)? -/
def wordInRange (w : Int) : Bool := decide (0 ≤ w) && decide (w ≤ 999)

/-- The checks in sequence order from position `i`: the first offending position decides (R204, the spec's choice D11;
UNVERIFIED, log 16). -/
def checkWords : Nat → List Int → Option LoadError
  | _, [] => none
  | i, w :: ws =>
    if 1000 ≤ i then some .capacityError
    else if wordInRange w then checkWords (i + 1) ws
    else some .formatError

/-- Write the words to consecutive cells from address `a` on (R200: "at addresses 0..k-1, in order"). -/
def writeWords : Memory → Nat → List Int → Memory
  | m, _, [] => m
  | m, a, w :: ws => writeWords (m.write a (BitVec.ofNat 10 w.toNat)) (a + 1) ws

/-- Every cell 0 (R200): an unlisted address reads as 0. -/
def zeroFilled : Memory := []

/-- The state a successful LOAD leaves (R200): every register 0, ic and pc 0, memory zero-filled and then the program,
fault none, fsm Ready. The configuration is not state and stays (R31). -/
def loadedState (words : List Int) (s : State) : State :=
  { config := s.config, x := Vector.replicate 10 0, mem := writeWords zeroFilled 0 words, pc := 0, ic := 0,
    fsm := .ready, fault := none }

/-- LOAD(words) (R200), on the integers the host's parser gives (DEDUCED, log 13): validation, then one indivisible
reset and install; a failed LOAD changes no state (R203; UNVERIFIED, log 16). It cannot occur in Running (R200; DEDUCED, log 10). -/
def load (words : List Int) (s : State) : Host.Outcome (State × LoadReply) Fault Refusal :=
  match s.fsm with
  | .running => .refused .loadWhileRunning
  | .ready | .halted | .faulted =>
    match checkWords 0 words with
    | some e => .next (s, .err e)
    | none => .next (loadedState words s, .ok)

end Sys2Proof.Machine
end

