-- ==== Sys2Proof/Machine/Run.lean ====
section
/-!
DEFINITION. The host command RUN (spec/40_execution_cycle.md R90, R91): steps until Halted or Faulted. It is a
function beside `step`, since the host interface has no state (R8; DESIGN CHOICE, log 7).
-/

namespace Sys2Proof.Machine

/-- What RUN returns to the host (R90): `Ok(ic)` or `Err(fault)`. -/
inductive RunReply where
  | ok (count : Nat)
  | err (kind : RuntimeFault)
  deriving DecidableEq, Repr

/-- `while fsm = Running: step()` (R90), at most `fuel` steps. -/
def runLoop : Nat → State → Host.Outcome State Fault Refusal
  | 0, s => .next s
  | fuel + 1, s =>
    match s.fsm with
    | .running =>
      match step s with
      | .next t => runLoop fuel t
      | .fault r => .fault r
      | .refused r => .refused r
    | .ready | .halted | .faulted => .next s

/-- What RUN returns from the state its loop ends in (R90): ic in Halted, the fault in Faulted. -/
def runReply (s : State) : Option RunReply :=
  match s.fsm with
  | .halted => some (.ok s.ic)
  | .faulted => s.fault.map .err
  | .ready | .running => none

/-- More steps than any run takes: at most INSN_LIMIT that fetch and one whose fetch fails (R89; DEDUCED, log 11). -/
def runFuel (s : State) : Nat := s.config.insnLimit + 1

/-- RUN() (R90). Outside Ready the spec refuses it (R91; DEDUCED, log 10). -/
def run (s : State) : Host.Outcome (State × RunReply) Fault Refusal :=
  match s.fsm with
  | .ready =>
    match runLoop (runFuel s) (startRun s) with
    | .next t =>
      match runReply t with
      | some r => .next (t, r)
      | none => .fault .runWithoutResult
    | .fault r => .fault r
    | .refused r => .refused r
  | .running => .refused (.runOutsideReady .running)
  | .halted => .refused (.runOutsideReady .halted)
  | .faulted => .refused (.runOutsideReady .faulted)

end Sys2Proof.Machine
end

