-- ==== Sys2Proof/Safety.lean ====
section
/-!
DEFINITION. What counts as a safe state and a safe run, in the words the statements use.
-/

namespace Sys2Proof.Machine

/-- The invariant of the block. Its first two lines are the source's: "every register and memory cell value lies in
[0, 999]" (spec/20_memory.md R55); the others are spec/10_state.md R25 to R28 and R33 read together. -/
structure SafeState (s : State) : Prop where
  /-- Every register holds a value in 0..999 (R20). -/
  regs : ∀ i : RegIndex, (readReg s i).toNat ≤ 999
  /-- Every listed cell has an address 0..999 and a value 0..999 (R40, R55). -/
  cells : s.mem.inRange
  /-- Memory is in its canonical form. -/
  memForm : s.mem.wf
  /-- The only pc outside 0..999 is 1000 (R25). -/
  pcRange : s.pc.toNat ≤ 1000
  /-- INSN_LIMIT is at least 1 (R5). -/
  limitPositive : 1 ≤ s.config.insnLimit
  /-- ic never exceeds INSN_LIMIT (R26). -/
  icBound : s.ic ≤ s.config.insnLimit
  /-- Before a step there is room for one more instruction (R88). -/
  icRunning : s.fsm = .running → s.ic < s.config.insnLimit
  /-- Ready is left by power-on and by LOAD only, with pc and ic 0 (R200, R205). -/
  readyZero : s.fsm = .ready → s.pc = 0 ∧ s.ic = 0
  /-- A fault is recorded exactly in Faulted (R28). -/
  faultStatus : s.fault.isSome = true ↔ s.fsm = .faulted
  /-- OpcodeError never occurs (R171). -/
  noOpcodeError : s.fault ≠ some .opcodeError
  /-- AddressError comes of running off the end of memory (R172). -/
  addressErrorAt : s.fault = some .addressError → s.pc.toNat = 1000
  /-- LimitExceededError comes at the ceiling (R173, R88). -/
  limitErrorAt : s.fault = some .limitExceededError → s.ic = s.config.insnLimit

/-- The states the block can come to: power-on with any draw (R205), then LOAD, RUN's entry to Running, and steps, in any
order the commands allow (R92). -/
inductive Reachable : State → Prop where
  | powerOn (config : Config) (x : Vector Word 10) (mem : Memory) :
      1 ≤ config.insnLimit → (∀ i : RegIndex, (x[i]).toNat ≤ 999) → mem.inRange → mem.wf →
      Reachable (State.powerOn config x mem)
  | load (words : List Int) (s t : State) (r : LoadReply) :
      Reachable s → Machine.load words s = .next (t, r) → Reachable t
  | startRun (s : State) : Reachable s → s.fsm = .ready → Reachable (Machine.startRun s)
  | step (s t : State) : Reachable s → Machine.step s = .next t → Reachable t

/-- Exactly `k` steps lead from the first state to the second, each of them answered. -/
inductive StepsTo : Nat → State → State → Prop where
  | none (s : State) : StepsTo 0 s s
  | more (k : Nat) (s t u : State) : Machine.step s = .next t → StepsTo k t u → StepsTo (k + 1) s u

/-- Every register but `d` is the same in both states. -/
def SameRegsExcept (d : RegIndex) (s t : State) : Prop := ∀ j : RegIndex, j ≠ d → readReg t j = readReg s j

/-- Every register is the same in both states. -/
def SameRegs (s t : State) : Prop := ∀ j : RegIndex, readReg t j = readReg s j

/-- Every cell reads the same in both states. -/
def SameMem (s t : State) : Prop := ∀ a : Nat, readMem t a = readMem s a

/-- ic, fsm, fault and the configuration are the same in both states. -/
def SameControl (s t : State) : Prop :=
  t.ic = s.ic ∧ t.fsm = s.fsm ∧ t.fault = s.fault ∧ t.config = s.config

/-- pc as a natural number is one more, without reduction (R25); said for a pc that a fetch accepts (R81). -/
def PcAdvanced (s t : State) : Prop := s.pc.toNat ≤ 999 → t.pc.toNat = s.pc.toNat + 1

/-- `s` is about to run the instruction `i`: Running, pc in 0..999, and the cell at pc decodes to `i` (R80). -/
def AboutToRun (i : Instr) (s : State) : Prop :=
  s.fsm = .running ∧ s.pc.toNat ≤ 999 ∧ decode (readMem s s.pc.toNat) = i

/-- The registers an instruction reads (the table of spec/10_state.md R22). -/
def regsRead : Instr → List RegIndex
  | .jumpIfNonzero d n => [n, d]
  | .halt _ _ => []
  | .loadImmediate _ _ => []
  | .addImmediate d _ => [d]
  | .mulImmediate d _ => [d]
  | .move _ n => [n]
  | .addRegs d n => [d, n]
  | .mulRegs d n => [d, n]
  | .loadIndirect _ n => [n]
  | .storeIndirect d n => [d, n]
  | .noInstruction _ _ => []

/-- The registers an instruction writes (the table of spec/10_state.md R22). -/
def regsWritten : Instr → List RegIndex
  | .jumpIfNonzero _ _ => []
  | .halt _ _ => []
  | .loadImmediate d _ => [d]
  | .addImmediate d _ => [d]
  | .mulImmediate d _ => [d]
  | .move d _ => [d]
  | .addRegs d _ => [d]
  | .mulRegs d _ => [d]
  | .loadIndirect d _ => [d]
  | .storeIndirect _ _ => []
  | .noInstruction _ _ => []

end Sys2Proof.Machine
end

