-- ==== Sys2Proof/Certificates/Slice0/Obligations.lean ====
section
/-!
DEFINITION. The statements for the provers. Each docstring names the rule of spec/ it formalises, and says where a
statement rests on a decision the spec marks as its own (D<n> of spec/92_eei_decisions.md) or on a choice of the model
(log <n>).
-/

open Sys2Proof Sys2Proof.Machine

/-! ## Encoding -/

/-- The decoder's table of worked words (spec/95_test_vectors.md §2.1), the never stored words 1000 and 1023 included. -/
def Obligations.DecodesTheWorkedWords : Prop :=
  decode 0 = .jumpIfNonzero 0 0 ∧ decode 7 = .jumpIfNonzero 0 7 ∧ decode 25 = .jumpIfNonzero 2 5 ∧
  decode 100 = .halt 0 0 ∧ decode 199 = .halt 9 9 ∧ decode 201 = .loadImmediate 0 1 ∧
  decode 335 = .addImmediate 3 5 ∧ decode 470 = .mulImmediate 7 0 ∧ decode 594 = .move 9 4 ∧
  decode 612 = .addRegs 1 2 ∧ decode 765 = .mulRegs 6 5 ∧ decode 809 = .loadIndirect 0 9 ∧
  decode 999 = .storeIndirect 9 9 ∧ decode 1000 = .noInstruction 0 0 ∧ decode 1023 = .noInstruction 2 3

/-- R61: the decoder's three fields, and their range for a word in 0..999. -/
def Obligations.DecoderSplitsDecimalDigits : Prop :=
  ∀ w : Word,
    (decode w).opcode = w.toNat / 100 ∧ (decode w).dDigit.val = w.toNat / 10 % 10 ∧
    (decode w).nDigit.val = w.toNat % 10 ∧
    (w.toNat ≤ 999 → (decode w).opcode ≤ 9 ∧ (decode w).dDigit.val ≤ 9 ∧ (decode w).nDigit.val ≤ 9)

/-- Every well-formed instruction, with every operand at every value its encoding admits, is what its word decodes to
(R60: "every triple (op, d, n) of digits is exactly one word"). -/
def Obligations.DecodeOfEncode : Prop :=
  ∀ i : Instr, i.WellFormed → decode (encode i) = i

/-- Each 10-bit word has one meaning: it decodes to a well-formed instruction, whose encoding is that word (R60). -/
def Obligations.EncodeOfDecode : Prop :=
  ∀ w : Word, (decode w).WellFormed ∧ encode (decode w) = w

/-- R62 (a rule the spec marks as derived): opcode k is selected exactly by the words 100k to 100k + 99; the words
1000..1023 are no instruction (R68). -/
def Obligations.OpcodeSelectedByWordRange : Prop :=
  ∀ w : Word,
    (∀ k : Nat, k ≤ 9 → ((decode w).opcode = k ↔ 100 * k ≤ w.toNat ∧ w.toNat ≤ 100 * k + 99)) ∧
    ((∃ d n, decode w = .noInstruction d n) ↔ 1000 ≤ w.toNat)

/-- R67: every word in 0..999 is one of the ten instructions; every word 100..199 is halt, with the same effect whatever
its digits; the word 000 is jump-if-nonzero with d = n = 0; and OpcodeError does not arise from a word in 0..999. -/
def Obligations.EveryStoredWordIsLegal : Prop :=
  (∀ w : Word, w.toNat ≤ 999 →
    (decode w).opcode ≤ 9 ∧ (∀ d n, decode w ≠ .noInstruction d n) ∧
    ∀ s : State, s.fault = none → ∃ t, exec (decode w) s = .next t ∧ t.fault ≠ some .opcodeError) ∧
  (∀ w : Word, 100 ≤ w.toNat → w.toNat ≤ 199 → ∃ d n, decode w = .halt d n) ∧
  (∀ (d n d' n' : Digit) (s : State), exec (.halt d n) s = exec (.halt d' n') s) ∧
  (decode 0 = .jumpIfNonzero 0 0 ∧
    ∀ s : State, s.pc.toNat ≤ 999 →
      ∃ t, exec (decode 0) s = .next t ∧
        t.pc.toNat = if (readReg s 0).toNat ≠ 0 then (readReg s 0).toNat else s.pc.toNat + 1)

/-! ## Control transfer -/

/-- R100: the encoding `0dn`; taken, pc is x[d] with no offset; not taken, pc advances by 1; no register or cell is
written and no exception is raised. -/
def Obligations.JumpIfNonzeroEffect : Prop :=
  ∀ (d n : Digit) (s : State),
    decode (BitVec.ofNat 10 (10 * d.val + n.val)) = .jumpIfNonzero d n ∧
    ∃ t, exec (.jumpIfNonzero d n) s = .next t ∧
      ((readReg s n).toNat ≠ 0 → t.pc = readReg s d) ∧
      ((readReg s n).toNat = 0 → PcAdvanced s t) ∧
      SameRegs s t ∧ SameMem s t ∧ SameControl s t

/-- R101: every word `1dn` halts; fsm is Halted, pc is the halt's own address, nothing else changes in the execute phase;
and the step that halts counts the halt and is not checked against the ceiling (the place of that check is the spec's
own choice D6; log 14). -/
def Obligations.HaltEffect : Prop :=
  (∀ (d n : Digit) (s : State),
    decode (BitVec.ofNat 10 (100 + 10 * d.val + n.val)) = .halt d n ∧
    ∃ t, exec (.halt d n) s = .next t ∧ t.fsm = .halted ∧ t.pc = s.pc ∧ t.ic = s.ic ∧ t.fault = s.fault ∧
      t.config = s.config ∧ SameRegs s t ∧ SameMem s t) ∧
  (∀ (d n : Digit) (s : State), AboutToRun (.halt d n) s →
    ∃ t, step s = .next t ∧ t.fsm = .halted ∧ t.fault = s.fault ∧ t.pc = s.pc ∧ t.ic = s.ic + 1)

/-- R84 and R171: a word 1000..1023 (R68) raises OpcodeError; no register, cell, pc or count is written by the execute
phase (what a fault leaves is the spec's own choice D7; log 15). -/
def Obligations.NoInstructionRaisesOpcodeError : Prop :=
  ∀ (d n : Digit) (s : State),
    (10 * d.val + n.val ≤ 23 → decode (BitVec.ofNat 10 (1000 + 10 * d.val + n.val)) = .noInstruction d n) ∧
    ∃ t, exec (.noInstruction d n) s = .next t ∧ t.fsm = .faulted ∧ t.fault = some .opcodeError ∧
      t.pc = s.pc ∧ t.ic = s.ic ∧ t.config = s.config ∧ SameRegs s t ∧ SameMem s t

/-! ## Register arithmetic -/

/-- R121: `2dn` sets x[d] to n, and pc advances. -/
def Obligations.LoadImmediateResult : Prop :=
  ∀ (d n : Digit) (s : State),
    decode (BitVec.ofNat 10 (200 + 10 * d.val + n.val)) = .loadImmediate d n ∧
    ∃ t, exec (.loadImmediate d n) s = .next t ∧ (readReg t d).toNat = n.val ∧ PcAdvanced s t ∧ SameControl s t

/-- R122: `3dn` sets x[d] to (x[d] + n) mod 1000, and pc advances. -/
def Obligations.AddImmediateResult : Prop :=
  ∀ (d n : Digit) (s : State),
    decode (BitVec.ofNat 10 (300 + 10 * d.val + n.val)) = .addImmediate d n ∧
    ∃ t, exec (.addImmediate d n) s = .next t ∧ (readReg t d).toNat = ((readReg s d).toNat + n.val) % 1000 ∧
      PcAdvanced s t ∧ SameControl s t

/-- R123: `4dn` sets x[d] to (x[d] * n) mod 1000, and pc advances. -/
def Obligations.MulImmediateResult : Prop :=
  ∀ (d n : Digit) (s : State),
    decode (BitVec.ofNat 10 (400 + 10 * d.val + n.val)) = .mulImmediate d n ∧
    ∃ t, exec (.mulImmediate d n) s = .next t ∧ (readReg t d).toNat = ((readReg s d).toNat * n.val) % 1000 ∧
      PcAdvanced s t ∧ SameControl s t

/-- R124: `5dn` copies x[n] to x[d] unchanged, and pc advances. -/
def Obligations.MoveResult : Prop :=
  ∀ (d n : Digit) (s : State),
    decode (BitVec.ofNat 10 (500 + 10 * d.val + n.val)) = .move d n ∧
    ∃ t, exec (.move d n) s = .next t ∧ readReg t d = readReg s n ∧ PcAdvanced s t ∧ SameControl s t

/-- R125: `6dn` sets x[d] to (x[d] + x[n]) mod 1000, both operands read before the write, and pc advances. -/
def Obligations.AddRegsResult : Prop :=
  ∀ (d n : Digit) (s : State),
    decode (BitVec.ofNat 10 (600 + 10 * d.val + n.val)) = .addRegs d n ∧
    ∃ t, exec (.addRegs d n) s = .next t ∧
      (readReg t d).toNat = ((readReg s d).toNat + (readReg s n).toNat) % 1000 ∧ PcAdvanced s t ∧ SameControl s t

/-- R126: `7dn` sets x[d] to (x[d] * x[n]) mod 1000, both operands read before the write, and pc advances. -/
def Obligations.MulRegsResult : Prop :=
  ∀ (d n : Digit) (s : State),
    decode (BitVec.ofNat 10 (700 + 10 * d.val + n.val)) = .mulRegs d n ∧
    ∃ t, exec (.mulRegs d n) s = .next t ∧
      (readReg t d).toNat = ((readReg s d).toNat * (readReg s n).toNat) % 1000 ∧ PcAdvanced s t ∧ SameControl s t

/-- The frame of the seven forms that write a register (opcodes 2 to 8): every other register, every cell, ic, fsm, fault
and the configuration are as before (R22, R44; a load whose address is out of range is LoadIndirectEffect's). -/
def Obligations.RegisterWritersFrame : Prop :=
  ∀ (d n : Digit) (s t : State),
    ((exec (.loadImmediate d n) s = .next t ∨ exec (.addImmediate d n) s = .next t ∨
      exec (.mulImmediate d n) s = .next t ∨ exec (.move d n) s = .next t ∨ exec (.addRegs d n) s = .next t ∨
      exec (.mulRegs d n) s = .next t) ∨
     ((readReg s n).toNat ≤ 999 ∧ exec (.loadIndirect d n) s = .next t)) →
    SameRegsExcept d s t ∧ SameMem s t ∧ SameControl s t

/-- R120: the ALU gives the exact natural-number sum or product reduced mod 1000, always in 0..999, and the non-zero
test; 10-bit truncation would differ (the spec's own two examples, which it marks as derived). -/
def Obligations.AluReducesModThousand : Prop :=
  (∀ a b : Word, a.toNat ≤ 999 → b.toNat ≤ 999 →
    (add1000 a b).toNat = (a.toNat + b.toNat) % 1000 ∧ (add1000 a b).toNat ≤ 999 ∧
    (mul1000 a b).toNat = (a.toNat * b.toNat) % 1000 ∧ (mul1000 a b).toNat ≤ 999 ∧
    (nz a = true ↔ a.toNat ≠ 0)) ∧
  (add1000 999 1 = 0 ∧ (999 + 1 : Word) = 1000) ∧ (mul1000 999 999 = 1 ∧ (999 * 999 : Word) = 625)

/-- R127 (b) and (d): on 0..999 add1000 and mul1000 are the ring of integers mod 1000 (commutative, associative,
distributive, identities 0 and 1), and adding (1000 - k) mod 1000 undoes adding k. -/
def Obligations.AluFormsTheRingModThousand : Prop :=
  ∀ a b c : Word, a.toNat ≤ 999 → b.toNat ≤ 999 → c.toNat ≤ 999 →
    add1000 a b = add1000 b a ∧ mul1000 a b = mul1000 b a ∧
    add1000 (add1000 a b) c = add1000 a (add1000 b c) ∧ mul1000 (mul1000 a b) c = mul1000 a (mul1000 b c) ∧
    mul1000 a (add1000 b c) = add1000 (mul1000 a b) (mul1000 a c) ∧
    add1000 a 0 = a ∧ mul1000 a 1 = a ∧
    add1000 (add1000 a b) (BitVec.ofNat 10 ((1000 - b.toNat) % 1000)) = a

/-! ## Memory -/

/-- R150: `8dn` loads the cell at x[n], read before x[d] is written; with x[n] out of range it raises AddressError, and no
register, cell or pc is written (what that branch leaves is the spec's own choice D7; log 15). -/
def Obligations.LoadIndirectEffect : Prop :=
  ∀ (d n : Digit) (s : State),
    decode (BitVec.ofNat 10 (800 + 10 * d.val + n.val)) = .loadIndirect d n ∧
    ((readReg s n).toNat ≤ 999 →
      ∃ t, exec (.loadIndirect d n) s = .next t ∧ readReg t d = readMem s (readReg s n).toNat ∧
        PcAdvanced s t ∧ SameControl s t) ∧
    (999 < (readReg s n).toNat →
      ∃ t, exec (.loadIndirect d n) s = .next t ∧ t.fsm = .faulted ∧ t.fault = some .addressError ∧
        t.pc = s.pc ∧ t.ic = s.ic ∧ t.config = s.config ∧ SameRegs s t ∧ SameMem s t)

/-- R151: `9dn` stores x[d] at x[n], and pc advances; with x[n] out of range it raises AddressError, and no register, cell
or pc is written (what that branch leaves is the spec's own choice D7; log 15). -/
def Obligations.StoreIndirectEffect : Prop :=
  ∀ (d n : Digit) (s : State),
    decode (BitVec.ofNat 10 (900 + 10 * d.val + n.val)) = .storeIndirect d n ∧
    ((readReg s n).toNat ≤ 999 →
      ∃ t, exec (.storeIndirect d n) s = .next t ∧ readMem t (readReg s n).toNat = readReg s d ∧
        PcAdvanced s t ∧ SameControl s t) ∧
    (999 < (readReg s n).toNat →
      ∃ t, exec (.storeIndirect d n) s = .next t ∧ t.fsm = .faulted ∧ t.fault = some .addressError ∧
        t.pc = s.pc ∧ t.ic = s.ic ∧ t.config = s.config ∧ SameRegs s t ∧ SameMem s t)

/-- The frame of store-indirect: for the address the meaning computes, every cell outside the one stored reads as before;
every register, ic, fsm, fault and the configuration are unchanged (R22, R41, R44). -/
def Obligations.StoreFrame : Prop :=
  ∀ (d n : Digit) (s t : State) (a : Nat),
    indirectAddress s n = some a → exec (.storeIndirect d n) s = .next t →
    (∀ b : Nat, b ≠ a → readMem t b = readMem s b) ∧ SameRegs s t ∧ SameControl s t

/-- R52: after any sequence of writes, a read of an address gives the most recent word written there, and what it read
before if none was. -/
def Obligations.ReadGivesTheMostRecentWrite : Prop :=
  ∀ (writes : List (Nat × Word)) (m : Memory) (a : Nat),
    Memory.read (writes.foldl (fun m c => Memory.write m c.1 c.2) m) a =
      match writes.reverse.find? (fun c => decide (c.1 = a)) with
      | some c => c.2
      | none => Memory.read m a

/-- The model's memory has one form: two memories in canonical form that read alike everywhere are the same list
(the model's choice, log 5). -/
def Obligations.CanonicalMemoriesThatReadAlikeAreEqual : Prop :=
  ∀ m m' : Memory, m.wf → m'.wf → (∀ a : Nat, Memory.read m a = Memory.read m' a) → m = m'

/-! ## The step -/

/-- A step runs the decoded instruction (R80, R83, R84): with pc in 0..999 in Running, the step is the execute phase of
the instruction the cell at pc decodes to, in the state with the instruction counted, then the limit check (that the check
stands there is the spec's own choice D6; log 14). -/
def Obligations.StepRunsTheDecodedInstruction : Prop :=
  ∀ (i : Instr) (s : State), AboutToRun i s →
    ∃ t, exec i (countInstruction s) = .next t ∧ step s = .next (limitCheck t)

/-- R81 and R175 (a): pc outside 0..999 at fetch raises AddressError; ic is not incremented, and no register, cell or pc
changes (that nothing changes is the spec's own choice D7; log 15). In a state that meets the invariant that pc is 1000. -/
def Obligations.FetchOutsideMemoryRaisesAddressError : Prop :=
  ∀ s : State, s.fsm = .running → 999 < s.pc.toNat →
    (∃ t, step s = .next t ∧ t.fsm = .faulted ∧ t.fault = some .addressError ∧ t.pc = s.pc ∧ t.ic = s.ic ∧
      t.config = s.config ∧ SameRegs s t ∧ SameMem s t) ∧
    (SafeState s → s.pc.toNat = 1000)

/-- R26 and R82: ic grows by exactly 1 in each step whose fetch succeeds, be it one that halts or faults, and not at all
where the fetch fails. -/
def Obligations.EveryFetchedInstructionIsCounted : Prop :=
  ∀ s : State, s.fsm = .running →
    ∃ t, step s = .next t ∧ t.ic = if s.pc.toNat ≤ 999 then s.ic + 1 else s.ic

/-- R24 and R85: where a step leaves pc, for each instruction; an advance is by exactly 1 and never reduced (R25, decision
D3; log 2), and a faulting execute phase leaves pc alone (D7; log 15). -/
def Obligations.StepUpdatesPc : Prop :=
  ∀ (i : Instr) (s t : State), AboutToRun i s → step s = .next t →
    match i with
    | .jumpIfNonzero d n =>
      if (readReg s n).toNat ≠ 0 then t.pc = readReg s d else t.pc.toNat = s.pc.toNat + 1
    | .halt _ _ | .noInstruction _ _ => t.pc = s.pc
    | .loadIndirect _ n | .storeIndirect _ n =>
      if (readReg s n).toNat ≤ 999 then t.pc.toNat = s.pc.toNat + 1 else t.pc = s.pc
    | .loadImmediate _ _ | .addImmediate _ _ | .mulImmediate _ _ | .move _ _ | .addRegs _ _ | .mulRegs _ _ =>
      t.pc.toNat = s.pc.toNat + 1

/-- R88 (the place of the check is the spec's own choice D6; log 14): after an execute phase that leaves Running, the step
raises LimitExceededError when ic has reached INSN_LIMIT, and every effect of the instruction stands (R175 (c)); below it,
and for a step that halts or has already faulted, the check does nothing. -/
def Obligations.LimitIsCheckedAfterTheExecutePhase : Prop :=
  ∀ (i : Instr) (s t : State), AboutToRun i s → exec i (countInstruction s) = .next t →
    (t.fsm = .running → s.config.insnLimit ≤ s.ic + 1 →
      ∃ u, step s = .next u ∧ u.fsm = .faulted ∧ u.fault = some .limitExceededError ∧
        u.pc = t.pc ∧ u.ic = s.ic + 1 ∧ u.config = s.config ∧ SameRegs t u ∧ SameMem t u) ∧
    (t.fsm = .running → s.ic + 1 < s.config.insnLimit → step s = .next t) ∧
    (t.fsm ≠ .running → step s = .next t)

/-- R22 (its column of writes), R44 and R80: a step changes no register but the one its instruction writes, and only a
store-indirect changes a cell, the one at x[n]. -/
def Obligations.StepWritesOnlyWhatItsOpcodeWrites : Prop :=
  ∀ (i : Instr) (s t : State), AboutToRun i s → step s = .next t →
    (∀ j : RegIndex, readReg t j ≠ readReg s j → j ∈ regsWritten i) ∧
    (∀ a : Nat, readMem t a ≠ readMem s a → ∃ d n, i = .storeIndirect d n ∧ indirectAddress s n = some a)

/-- R22 (its column of reads), R44, R86: an execute phase reads no register but those of R22's table, and no cell but a
load's: two states that agree on these and on pc, fsm and fault give the same written register (where the instruction
advances pc, and so writes it), stored cell, pc, fsm and fault. -/
def Obligations.InstructionReadsOnlyItsOperands : Prop :=
  ∀ (i : Instr) (s s' t t' : State),
    (∀ j ∈ regsRead i, readReg s j = readReg s' j) →
    (∀ d n, i = .loadIndirect d n → readMem s (readReg s n).toNat = readMem s' (readReg s n).toNat) →
    s.pc = s'.pc → s.fsm = s'.fsm → s.fault = s'.fault →
    exec i s = .next t → exec i s' = .next t' →
    ((∀ j ∈ regsWritten i, t.pc = s.pc + 1 → readReg t j = readReg t' j) ∧
     (∀ d n a, i = .storeIndirect d n → indirectAddress s n = some a → readMem t a = readMem t' a) ∧
     t.pc = t'.pc ∧ t.fsm = t'.fsm ∧ t.fault = t'.fault)

/-- R46: a fetch reads the word its cell holds at that moment; a store-indirect step puts its word in its cell, and every
other step leaves every cell as it is, so that a store is seen by every later fetch; and a store-indirect to the address of
the next instruction is seen by that next fetch, which runs the stored word. -/
def Obligations.NextFetchSeesTheStore : Prop :=
  (∀ s : State, s.pc.toNat ≤ 999 → fetch s = some (readMem s s.pc.toNat)) ∧
  (∀ (s t : State) (a : Nat), step s = .next t →
    (∀ d n, AboutToRun (.storeIndirect d n) s → indirectAddress s n = some a → readMem t a = readReg s d) ∧
    ((∀ d n, AboutToRun (.storeIndirect d n) s → indirectAddress s n ≠ some a) → readMem t a = readMem s a)) ∧
  (∀ (d n : Digit) (s : State), AboutToRun (.storeIndirect d n) s →
    (readReg s n).toNat = s.pc.toNat + 1 → (readReg s n).toNat ≤ 999 → s.ic + 1 < s.config.insnLimit →
    ∃ t, step s = .next t ∧ fetch t = some (readReg s d) ∧ AboutToRun (decode (readReg s d)) t)

/-- R47 (a rule the spec marks as derived): a store to the address of the instruction making it does not change that step;
the stored word stands there afterwards. -/
def Obligations.StoreToItsOwnAddress : Prop :=
  ∀ (d n : Digit) (s : State), AboutToRun (.storeIndirect d n) s → readReg s n = s.pc →
    ∃ t, step s = .next t ∧ readMem t s.pc.toNat = readReg s d ∧ t.pc.toNat = s.pc.toNat + 1 ∧ SameRegs s t ∧
      ∀ a : Nat, a ≠ s.pc.toNat → readMem t a = readMem s a

/-- R175 (b) (the spec's own choice D7; log 15): an OpcodeError or an AddressError of the execute phase leaves registers,
memory and pc as they were, with ic counted. -/
def Obligations.ExecutePhaseFaultLeavesTheState : Prop :=
  ∀ (i : Instr) (s : State) (d n : Digit), AboutToRun i s →
    (i = .noInstruction d n ∨ ((i = .loadIndirect d n ∨ i = .storeIndirect d n) ∧ 999 < (readReg s n).toNat)) →
    ∃ t, step s = .next t ∧ t.fsm = .faulted ∧
      t.fault = some (if i = .noInstruction d n then .opcodeError else .addressError) ∧
      t.pc = s.pc ∧ t.ic = s.ic + 1 ∧ t.config = s.config ∧ SameRegs s t ∧ SameMem s t

/-- R176 (with the place of the limit check, decision D6; log 14): which fault a step raises, in the order of its checks;
at most one. -/
def Obligations.FaultsAreCheckedInOrder : Prop :=
  ∀ s : State, s.fsm = .running → s.fault = none →
    ∃ t, step s = .next t ∧ (t.fsm = .faulted ↔ t.fault.isSome = true) ∧
      t.fault =
        if 999 < s.pc.toNat then some .addressError
        else
          match decode (readMem s s.pc.toNat) with
          | .noInstruction _ _ => some .opcodeError
          | .halt _ _ => none
          | .loadIndirect _ n | .storeIndirect _ n =>
            if 999 < (readReg s n).toNat then some .addressError
            else if s.config.insnLimit ≤ s.ic + 1 then some .limitExceededError else none
          | .jumpIfNonzero _ _ | .loadImmediate _ _ | .addImmediate _ _ | .mulImmediate _ _ | .move _ _
          | .addRegs _ _ | .mulRegs _ _ =>
            if s.config.insnLimit ≤ s.ic + 1 then some .limitExceededError else none

/-- R80 and R89: in Running a step always answers a next state; outside Running no step is defined, and the model stops by
name there (the model's choice, log 6). -/
def Obligations.StepIsDefinedExactlyInRunning : Prop :=
  ∀ s : State,
    (s.fsm = .running → ∃ t, step s = .next t) ∧
    (s.fsm ≠ .running → step s = .fault (.stepOutsideRunning s.fsm))

/-- R92: the rows of the transition table of fsm that a step takes, in a state that meets the invariant (the limit check's
place is decision D6; log 14). -/
def Obligations.StepTransitionsOfTheStateMachine : Prop :=
  ∀ s t : State, SafeState s → step s = .next t →
    s.fsm = .running ∧ t.fsm ≠ .ready ∧
    (t.fsm = .halted ↔ s.pc.toNat ≤ 999 ∧ ∃ d n, decode (readMem s s.pc.toNat) = .halt d n) ∧
    (t.fsm = .faulted ↔
      s.pc.toNat = 1000 ∨
      ((∀ d n, decode (readMem s s.pc.toNat) ≠ .halt d n) ∧ s.config.insnLimit ≤ s.ic + 1))

/-- R172 (a) and R25: pc becomes 1000 only by an advance from 999, by an instruction that is neither a taken jump nor a
halt. -/
def Obligations.PcLeavesMemoryOnlyFromTheLastCell : Prop :=
  ∀ s t : State, SafeState s → step s = .next t → s.pc.toNat ≤ 999 → 999 < t.pc.toNat →
    s.pc.toNat = 999 ∧ t.pc.toNat = 1000 ∧
    ∀ d n, decode (readMem s 999) ≠ .halt d n ∧
      (decode (readMem s 999) = .jumpIfNonzero d n → (readReg s n).toNat = 0)

/-- R71 (a rule the spec marks as derived): `3d0` and `5dd` only advance pc and still count; adding 999 decrements a
register, and turns 0 into 999. -/
def Obligations.NoOpAndDecrementIdioms : Prop :=
  (∀ (i : Instr) (d : Digit) (s : State), i = .addImmediate d 0 ∨ i = .move d d → AboutToRun i s →
    (readReg s d).toNat ≤ 999 → s.ic + 1 < s.config.insnLimit →
    ∃ t, step s = .next t ∧ SameRegs s t ∧ SameMem s t ∧ t.pc.toNat = s.pc.toNat + 1 ∧ t.ic = s.ic + 1 ∧
      t.fsm = .running ∧ t.fault = s.fault) ∧
  (∀ (d k : Digit) (s : State), AboutToRun (.addRegs d k) s → (readReg s d).toNat ≤ 999 →
    (readReg s k).toNat = 999 →
    ∃ t, step s = .next t ∧
      (readReg t d).toNat = if (readReg s d).toNat = 0 then 999 else (readReg s d).toNat - 1)

/-- R100 (c): a taken jump to its own address loops, one instruction each time, until LimitExceededError at exactly
INSN_LIMIT (the limit check's place is decision D6; log 14). -/
def Obligations.SelfJumpRunsIntoTheCeiling : Prop :=
  ∀ (d n : Digit) (s : State) (fuel : Nat), AboutToRun (.jumpIfNonzero d n) s →
    (readReg s n).toNat ≠ 0 → readReg s d = s.pc → s.ic < s.config.insnLimit →
    s.config.insnLimit ≤ s.ic + fuel →
    ∃ t, runLoop fuel s = .next t ∧ t.fsm = .faulted ∧ t.fault = some .limitExceededError ∧ t.pc = s.pc ∧
      t.ic = s.config.insnLimit ∧ SameRegs s t ∧ SameMem s t

/-! ## Invariants -/

/-- The reset state: pc, ic, fsm and fault as R205 sets them; every register and every cell 0 (the model's choice, logs 4
and 5) and INSN_LIMIT 10000 (the model's choice, log 3); and it meets the invariant. -/
def Obligations.ResetStateMeetsTheInvariant : Prop :=
  SafeState State.reset ∧ State.reset.pc = 0 ∧ State.reset.ic = 0 ∧ State.reset.fsm = .ready ∧ State.reset.fault = none ∧
  (∀ i : RegIndex, readReg State.reset i = 0) ∧ (∀ a : Nat, readMem State.reset a = 0)

/-- R205 (decision D8): power-on with any draw in 0..999 and any INSN_LIMIT of at least 1 has pc = 0, ic = 0, no fault,
Ready, holds the draw, and meets the invariant. -/
def Obligations.PowerOnWithAnyDrawMeetsTheInvariant : Prop :=
  ∀ (config : Config) (x : Vector Word 10) (mem : Memory),
    1 ≤ config.insnLimit → (∀ i : RegIndex, (x[i]).toNat ≤ 999) → mem.inRange → mem.wf →
    SafeState (State.powerOn config x mem) ∧ (State.powerOn config x mem).pc = 0 ∧ (State.powerOn config x mem).ic = 0 ∧
    (State.powerOn config x mem).fsm = .ready ∧ (State.powerOn config x mem).fault = none ∧
    (∀ i : RegIndex, readReg (State.powerOn config x mem) i = x[i]) ∧
    (∀ a : Nat, readMem (State.powerOn config x mem) a = Memory.read mem a)

/-- Every step keeps the invariant, from every state that meets it (R20, R25, R26, R28, R55, R88; what it
says of pc 1000, of ic against INSN_LIMIT and of a LimitExceededError rests on decisions D3, D4 and D6; logs 2 and 14). -/
def Obligations.StepKeepsTheInvariant : Prop :=
  ∀ s t : State, SafeState s → step s = .next t → SafeState t

/-- LOAD keeps the invariant, succeed or fail (R200, R203; for a failed LOAD decision D10, log 16). -/
def Obligations.LoadKeepsTheInvariant : Prop :=
  ∀ (words : List Int) (s t : State) (r : LoadReply), SafeState s → load words s = .next (t, r) → SafeState t

/-- RUN keeps the invariant (R90; the invariant rests on decisions D3, D4 and D6, as above; logs 2 and 14). -/
def Obligations.RunKeepsTheInvariant : Prop :=
  ∀ (s t : State) (r : RunReply), SafeState s → run s = .next (t, r) → SafeState t

/-- R55: in every state the block can come to, every cell and every register holds a value in 0..999; LOAD installs only
range-checked words, and store-indirect writes only a register's value. The states meant are `Reachable`'s: they start at
power-on with any draw in 0..999 (R205, decision D8; log 19), and LOAD and RUN stand beside the step (the model's choice,
log 7). -/
def Obligations.EveryCellStaysInRange : Prop :=
  (∀ s : State, Reachable s → (∀ a : Nat, (readMem s a).toNat ≤ 999) ∧ ∀ i : RegIndex, (readReg s i).toNat ≤ 999) ∧
  (∀ (words : List Int) (s t : State), load words s = .next (t, .ok) → ∀ w ∈ words, 0 ≤ w ∧ w ≤ 999) ∧
  (∀ (d n : Digit) (s t : State) (a : Nat), exec (.storeIndirect d n) s = .next t →
    readMem t a ≠ readMem s a → readMem t a = readReg s d)

/-- R171, R172, R173 and R176: in every state the block can come to there is no OpcodeError, an AddressError stands at pc
1000, and a LimitExceededError at ic = INSN_LIMIT (decision D6; log 14); pc is at most 1000 and ic at most INSN_LIMIT (decisions D3 and
D4; log 2). The states meant are `Reachable`'s (decision D8, log 19; the model's choice, log 7). -/
def Obligations.ReachableFaults : Prop :=
  ∀ s : State, Reachable s →
    s.fault ≠ some .opcodeError ∧ (s.fault = some .addressError → s.pc.toNat = 1000) ∧
    (s.fault = some .limitExceededError → s.ic = s.config.insnLimit) ∧ (s.fault.isSome = true ↔ s.fsm = .faulted) ∧
    s.pc.toNat ≤ 1000 ∧ s.ic ≤ s.config.insnLimit

/-- R31: no instruction, no step and no host command writes INSN_LIMIT. -/
def Obligations.ConfigurationIsNeverWritten : Prop :=
  (∀ (i : Instr) (s t : State), exec i s = .next t → t.config = s.config) ∧
  (∀ s t : State, step s = .next t → t.config = s.config) ∧
  (∀ (words : List Int) (s t : State) (r : LoadReply), load words s = .next (t, r) → t.config = s.config) ∧
  (∀ (s t : State) (r : RunReply), run s = .next (t, r) → t.config = s.config)

/-! ## LOAD -/

/-- R200 and R48: a LOAD of at most 1000 words in 0..999, in any state but Running, resets every register, ic and pc to 0,
installs the words at 0..k-1, zeroes every other cell, and leaves Ready with no fault (the clearing of fault is the
spec's own, as R200 says). -/
def Obligations.LoadInstallsTheProgram : Prop :=
  ∀ (words : List Int) (s : State), s.fsm ≠ .running → words.length ≤ 1000 → (∀ w ∈ words, 0 ≤ w ∧ w ≤ 999) →
    ∃ t, load words s = .next (t, .ok) ∧ (∀ i : RegIndex, readReg t i = 0) ∧ t.ic = 0 ∧ t.pc = 0 ∧
      t.fsm = .ready ∧ t.fault = none ∧ t.config = s.config ∧
      (∀ a : Nat, a < words.length → ((readMem t a).toNat : Int) = words.getD a 0) ∧
      (∀ a : Nat, words.length ≤ a → readMem t a = 0)

/-- R201, R202 and R204 (the order is the spec's own choice D11; log 16): FormatError exactly when a word below position
1000 is not in 0..999, CapacityError exactly when there are more than 1000 words and the first 1000 are valid. -/
def Obligations.FirstOffendingWordDecidesTheLoadError : Prop :=
  ∀ (words : List Int) (s : State), s.fsm ≠ .running →
    (load words s = .next (s, .err .formatError) ↔ ∃ i : Nat, i < 1000 ∧ ¬ (0 ≤ words.getD i 0 ∧ words.getD i 0 ≤ 999)) ∧
    (load words s = .next (s, .err .capacityError) ↔
      1000 < words.length ∧ ∀ i : Nat, i < 1000 → 0 ≤ words.getD i 0 ∧ words.getD i 0 ≤ 999)

/-- R203 (the spec's own choice D10; log 16): a LOAD that returns an error changes no state. -/
def Obligations.FailedLoadChangesNothing : Prop :=
  ∀ (words : List Int) (s t : State) (e : LoadError), load words s = .next (t, .err e) → t = s

/-- R206: after a successful LOAD of a program the whole state is a function of the program alone (and of INSN_LIMIT, which
is not state): from whatever state the machine was in, a freshly constructed one included, it comes to the same state. -/
def Obligations.LoadIsolatesPrograms : Prop :=
  ∀ (words : List Int) (s s' t : State), s.config = s'.config → s'.fsm ≠ .running → load words s = .next (t, .ok) →
    load words s' = .next (t, .ok) ∧
    ∀ (x : Vector Word 10) (mem : Memory), load words (State.powerOn s.config x mem) = .next (t, .ok)

/-- R91 (decision D9) and R200 (the model's refusals, log 10): RUN has no meaning outside Ready, and LOAD none in
Running. -/
def Obligations.CommandsOutOfTurnAreRefused : Prop :=
  ∀ s : State,
    (s.fsm ≠ .ready → run s = .refused (.runOutsideReady s.fsm)) ∧
    (s.fsm = .running → ∀ words : List Int, load words s = .refused .loadWhileRunning)

/-! ## RUN -/

/-- R89 and R90: from every Ready state, with every program and every INSN_LIMIT, RUN ends in Halted or Faulted and
returns a result, within at most INSN_LIMIT + 1 steps. The bound is an inference R89 marks as derived; it rests on the place
of the limit check (decision D6; log 14), and that `run`'s loop does not end for want of fuel rests on it (log 11). -/
def Obligations.RunAlwaysEnds : Prop :=
  ∀ s : State, s.fsm = .ready →
    ∃ t r k, run s = .next (t, r) ∧ (t.fsm = .halted ∨ t.fsm = .faulted) ∧ k ≤ s.config.insnLimit + 1 ∧
      StepsTo k (startRun s) t

/-- R90, R26 and R101: a RUN that returns Ok(k) took exactly k steps, ended in Halted at a halt word with ic = k, and k is
at most INSN_LIMIT (decisions D4 and D6 for the bound; log 14). -/
def Obligations.RunReturnsTheInstructionCount : Prop :=
  ∀ (s t : State) (k : Nat), SafeState s → run s = .next (t, .ok k) →
    t.fsm = .halted ∧ t.fault = none ∧ k = t.ic ∧ k ≤ s.config.insnLimit ∧
    (∃ d n, decode (readMem t t.pc.toNat) = .halt d n) ∧
    StepsTo k (startRun s) t

/-- R90, R172 and R173: a RUN that returns Err(f) ended in Faulted with fault f, which is an AddressError at pc = 1000 below
the ceiling or a LimitExceededError at ic = INSN_LIMIT (decision D6; log 14). -/
def Obligations.RunReturnsTheFault : Prop :=
  ∀ (s t : State) (f : RuntimeFault), SafeState s → run s = .next (t, .err f) →
    t.fsm = .faulted ∧ t.fault = some f ∧
    ((f = .addressError ∧ t.pc.toNat = 1000 ∧ t.ic < s.config.insnLimit) ∨
     (f = .limitExceededError ∧ t.ic = s.config.insnLimit))
end

