-- ==== Sys2Proof/Laws/Alu.lean ====
section
/-!
SUPPORT. What the ALU and the operand forms answer, as natural numbers (spec/42_register_arithmetic.md R120,
spec/30_encoding.md R64, spec/43_memory_access.md R152).
-/

namespace Sys2Proof.Machine

@[simp] theorem add1000_toNat (a b : Word) : (add1000 a b).toNat = (a.toNat + b.toNat) % 1000 := by
  simp only [add1000, BitVec.toNat_ofNat, modulus]
  omega

@[simp] theorem mul1000_toNat (a b : Word) : (mul1000 a b).toNat = (a.toNat * b.toNat) % 1000 := by
  simp only [mul1000, BitVec.toNat_ofNat, modulus]
  omega

@[simp] theorem immOperand_toNat (n : Digit) : (immOperand n).toNat = n.val := by
  simp only [immOperand, BitVec.toNat_ofNat]
  omega

theorem nz_iff (a : Word) : nz a = true ↔ a.toNat ≠ 0 := by
  simp [nz, ← BitVec.toNat_inj]

@[simp] theorem addressExists_iff (a : Nat) : addressExists a = true ↔ a ≤ 999 := by
  simp [addressExists]

/-- The address register is in range: the effective address is its value (R152). -/
theorem indirectAddress_of_le {s : State} {n : RegIndex} (h : (readReg s n).toNat ≤ 999) :
    indirectAddress s n = some (readReg s n).toNat := by
  simp [indirectAddress, h]

/-- The address register is out of range: there is no address (R150, R151). -/
theorem indirectAddress_of_gt {s : State} {n : RegIndex} (h : 999 < (readReg s n).toNat) :
    indirectAddress s n = none := by
  simp [indirectAddress, show ¬ (readReg s n).toNat ≤ 999 by omega]

theorem indirectAddress_eq_some {s : State} {n : RegIndex} {a : Nat} :
    indirectAddress s n = some a ↔ a = (readReg s n).toNat ∧ a ≤ 999 := by
  by_cases h : (readReg s n).toNat ≤ 999
  · rw [indirectAddress_of_le h]
    constructor
    · intro e; cases e; exact ⟨rfl, h⟩
    · rintro ⟨rfl, -⟩; rfl
  · rw [indirectAddress_of_gt (by omega)]
    constructor
    · intro e; cases e
    · rintro ⟨rfl, h'⟩; exact absurd h' h

theorem indirectAddress_eq_none {s : State} {n : RegIndex} :
    indirectAddress s n = none ↔ 999 < (readReg s n).toNat := by
  by_cases h : (readReg s n).toNat ≤ 999
  · simp [indirectAddress_of_le h, h]
  · simp [indirectAddress_of_gt (by omega : 999 < (readReg s n).toNat)]; omega

end Sys2Proof.Machine
end

