-- ==== Sys2Proof/Laws/Decode.lean ====
section
/-!
SUPPORT. The decoder's fields and the shape of what it answers (spec/30_encoding.md R61, R65).
-/

namespace Sys2Proof

@[simp] theorem digitOf_val (k : Nat) : (digitOf k).val = k % 10 := rfl

theorem dField_val (w : Word) : (dField w).val = w.toNat / 10 % 10 := rfl

theorem nField_val (w : Word) : (nField w).val = w.toNat % 10 := rfl

/-- A 10-bit word's hundreds digit is at most 10 (R68). -/
theorem opField_le (w : Word) : opField w ≤ 10 := by
  have := w.isLt
  unfold opField
  omega

theorem wordOf_toNat {op : Nat} {d n : Digit} (h : 100 * op + 10 * d.val + n.val < 1024) :
    (wordOf op d n).toNat = 100 * op + 10 * d.val + n.val := by
  simp only [wordOf, BitVec.toNat_ofNat]
  omega

/-- Each opcode's arm of the opcode map keeps its opcode and its digits. -/
theorem instrOf_fields {op : Nat} (h : op ≤ 10) (d n : Digit) :
    (instrOf op d n).opcode = op ∧ (instrOf op d n).dDigit = d ∧ (instrOf op d n).nDigit = n := by
  match op, h with
  | 0, _ | 1, _ | 2, _ | 3, _ | 4, _ | 5, _ | 6, _ | 7, _ | 8, _ | 9, _ | 10, _ => exact ⟨rfl, rfl, rfl⟩

theorem instrOf_opcode_digits (i : Instr) : instrOf i.opcode i.dDigit i.nDigit = i := by
  cases i <;> rfl

theorem encode_eq_wordOf (i : Instr) : encode i = wordOf i.opcode i.dDigit i.nDigit := by
  cases i <;> rfl

theorem decodeTableWord_of_lt (nbits : Nat) {w : Nat} (h : w < 1024) :
    decodeTableWord nbits w = some (decode (BitVec.ofNat 10 w)) := by
  simp [decodeTableWord, decodeNumber, h]

end Sys2Proof
end

