-- ==== Sys2Proof/Laws/State.lean ====
section
/-!
SUPPORT. One lemma per field of State and per update of it, true by unfolding: later proofs rewrite with these and never
unfold a record update. Then the reads of a register and of a cell after each update.
-/

namespace Sys2Proof.Machine

/-! ### writeReg -/

@[simp] theorem writeReg_config (s : State) (i : RegIndex) (v : Word) : (writeReg s i v).config = s.config := rfl
@[simp] theorem writeReg_x (s : State) (i : RegIndex) (v : Word) : (writeReg s i v).x = s.x.set i.val v i.isLt := rfl
@[simp] theorem writeReg_mem (s : State) (i : RegIndex) (v : Word) : (writeReg s i v).mem = s.mem := rfl
@[simp] theorem writeReg_pc (s : State) (i : RegIndex) (v : Word) : (writeReg s i v).pc = s.pc := rfl
@[simp] theorem writeReg_ic (s : State) (i : RegIndex) (v : Word) : (writeReg s i v).ic = s.ic := rfl
@[simp] theorem writeReg_fsm (s : State) (i : RegIndex) (v : Word) : (writeReg s i v).fsm = s.fsm := rfl
@[simp] theorem writeReg_fault (s : State) (i : RegIndex) (v : Word) : (writeReg s i v).fault = s.fault := rfl

/-! ### writeMem -/

@[simp] theorem writeMem_config (s : State) (a : Nat) (v : Word) : (writeMem s a v).config = s.config := rfl
@[simp] theorem writeMem_x (s : State) (a : Nat) (v : Word) : (writeMem s a v).x = s.x := rfl
@[simp] theorem writeMem_mem (s : State) (a : Nat) (v : Word) : (writeMem s a v).mem = s.mem.write a v := rfl
@[simp] theorem writeMem_pc (s : State) (a : Nat) (v : Word) : (writeMem s a v).pc = s.pc := rfl
@[simp] theorem writeMem_ic (s : State) (a : Nat) (v : Word) : (writeMem s a v).ic = s.ic := rfl
@[simp] theorem writeMem_fsm (s : State) (a : Nat) (v : Word) : (writeMem s a v).fsm = s.fsm := rfl
@[simp] theorem writeMem_fault (s : State) (a : Nat) (v : Word) : (writeMem s a v).fault = s.fault := rfl

/-! ### jumpTo -/

@[simp] theorem jumpTo_config (s : State) (v : Word) : (jumpTo s v).config = s.config := rfl
@[simp] theorem jumpTo_x (s : State) (v : Word) : (jumpTo s v).x = s.x := rfl
@[simp] theorem jumpTo_mem (s : State) (v : Word) : (jumpTo s v).mem = s.mem := rfl
@[simp] theorem jumpTo_pc (s : State) (v : Word) : (jumpTo s v).pc = v := rfl
@[simp] theorem jumpTo_ic (s : State) (v : Word) : (jumpTo s v).ic = s.ic := rfl
@[simp] theorem jumpTo_fsm (s : State) (v : Word) : (jumpTo s v).fsm = s.fsm := rfl
@[simp] theorem jumpTo_fault (s : State) (v : Word) : (jumpTo s v).fault = s.fault := rfl

/-! ### advancePc -/

@[simp] theorem advancePc_config (s : State) : (advancePc s).config = s.config := rfl
@[simp] theorem advancePc_x (s : State) : (advancePc s).x = s.x := rfl
@[simp] theorem advancePc_mem (s : State) : (advancePc s).mem = s.mem := rfl
@[simp] theorem advancePc_pc (s : State) : (advancePc s).pc = s.pc + 1 := rfl
@[simp] theorem advancePc_ic (s : State) : (advancePc s).ic = s.ic := rfl
@[simp] theorem advancePc_fsm (s : State) : (advancePc s).fsm = s.fsm := rfl
@[simp] theorem advancePc_fault (s : State) : (advancePc s).fault = s.fault := rfl

/-! ### countInstruction -/

@[simp] theorem countInstruction_config (s : State) : (countInstruction s).config = s.config := rfl
@[simp] theorem countInstruction_x (s : State) : (countInstruction s).x = s.x := rfl
@[simp] theorem countInstruction_mem (s : State) : (countInstruction s).mem = s.mem := rfl
@[simp] theorem countInstruction_pc (s : State) : (countInstruction s).pc = s.pc := rfl
@[simp] theorem countInstruction_ic (s : State) : (countInstruction s).ic = s.ic + 1 := rfl
@[simp] theorem countInstruction_fsm (s : State) : (countInstruction s).fsm = s.fsm := rfl
@[simp] theorem countInstruction_fault (s : State) : (countInstruction s).fault = s.fault := rfl

/-! ### enterHalted -/

@[simp] theorem enterHalted_config (s : State) : (enterHalted s).config = s.config := rfl
@[simp] theorem enterHalted_x (s : State) : (enterHalted s).x = s.x := rfl
@[simp] theorem enterHalted_mem (s : State) : (enterHalted s).mem = s.mem := rfl
@[simp] theorem enterHalted_pc (s : State) : (enterHalted s).pc = s.pc := rfl
@[simp] theorem enterHalted_ic (s : State) : (enterHalted s).ic = s.ic := rfl
@[simp] theorem enterHalted_fsm (s : State) : (enterHalted s).fsm = .halted := rfl
@[simp] theorem enterHalted_fault (s : State) : (enterHalted s).fault = s.fault := rfl

/-! ### raise -/

@[simp] theorem raise_config (k : RuntimeFault) (s : State) : (raise k s).config = s.config := rfl
@[simp] theorem raise_x (k : RuntimeFault) (s : State) : (raise k s).x = s.x := rfl
@[simp] theorem raise_mem (k : RuntimeFault) (s : State) : (raise k s).mem = s.mem := rfl
@[simp] theorem raise_pc (k : RuntimeFault) (s : State) : (raise k s).pc = s.pc := rfl
@[simp] theorem raise_ic (k : RuntimeFault) (s : State) : (raise k s).ic = s.ic := rfl
@[simp] theorem raise_fsm (k : RuntimeFault) (s : State) : (raise k s).fsm = .faulted := rfl
@[simp] theorem raise_fault (k : RuntimeFault) (s : State) : (raise k s).fault = some k := rfl

/-! ### startRun -/

@[simp] theorem startRun_config (s : State) : (startRun s).config = s.config := rfl
@[simp] theorem startRun_x (s : State) : (startRun s).x = s.x := rfl
@[simp] theorem startRun_mem (s : State) : (startRun s).mem = s.mem := rfl
@[simp] theorem startRun_pc (s : State) : (startRun s).pc = s.pc := rfl
@[simp] theorem startRun_ic (s : State) : (startRun s).ic = s.ic := rfl
@[simp] theorem startRun_fsm (s : State) : (startRun s).fsm = .running := rfl
@[simp] theorem startRun_fault (s : State) : (startRun s).fault = s.fault := rfl

/-! ### reading a register after an update -/

theorem readReg_writeReg (s : State) (i j : RegIndex) (v : Word) :
    readReg (writeReg s i v) j = if j = i then v else readReg s j := by
  by_cases h : j = i
  · subst h; simp [readReg, writeReg]
  · have h' : i.val ≠ j.val := fun e => h (Fin.ext e.symm)
    simp [readReg, writeReg, h, h']

@[simp] theorem readReg_writeReg_same (s : State) (i : RegIndex) (v : Word) : readReg (writeReg s i v) i = v := by
  simp [readReg_writeReg]

theorem readReg_writeReg_ne (s : State) {i j : RegIndex} (v : Word) (h : j ≠ i) :
    readReg (writeReg s i v) j = readReg s j := by
  simp [readReg_writeReg, h]

@[simp] theorem readReg_writeMem (s : State) (a : Nat) (v : Word) (j : RegIndex) : readReg (writeMem s a v) j = readReg s j := rfl
@[simp] theorem readReg_jumpTo (s : State) (v : Word) (j : RegIndex) : readReg (jumpTo s v) j = readReg s j := rfl
@[simp] theorem readReg_advancePc (s : State) (j : RegIndex) : readReg (advancePc s) j = readReg s j := rfl
@[simp] theorem readReg_countInstruction (s : State) (j : RegIndex) : readReg (countInstruction s) j = readReg s j := rfl
@[simp] theorem readReg_enterHalted (s : State) (j : RegIndex) : readReg (enterHalted s) j = readReg s j := rfl
@[simp] theorem readReg_raise (k : RuntimeFault) (s : State) (j : RegIndex) : readReg (raise k s) j = readReg s j := rfl
@[simp] theorem readReg_startRun (s : State) (j : RegIndex) : readReg (startRun s) j = readReg s j := rfl

/-! ### reading a cell after an update (the write itself is in Laws/Memory.lean) -/

@[simp] theorem readMem_writeReg (s : State) (i : RegIndex) (v : Word) (b : Nat) : readMem (writeReg s i v) b = readMem s b := rfl
@[simp] theorem readMem_jumpTo (s : State) (v : Word) (b : Nat) : readMem (jumpTo s v) b = readMem s b := rfl
@[simp] theorem readMem_advancePc (s : State) (b : Nat) : readMem (advancePc s) b = readMem s b := rfl
@[simp] theorem readMem_countInstruction (s : State) (b : Nat) : readMem (countInstruction s) b = readMem s b := rfl
@[simp] theorem readMem_enterHalted (s : State) (b : Nat) : readMem (enterHalted s) b = readMem s b := rfl
@[simp] theorem readMem_raise (k : RuntimeFault) (s : State) (b : Nat) : readMem (raise k s) b = readMem s b := rfl
@[simp] theorem readMem_startRun (s : State) (b : Nat) : readMem (startRun s) b = readMem s b := rfl

/-! ### power-on and reset (spec/70_reset_and_hazards.md R205) -/

@[simp] theorem powerOn_config (c : Config) (x : Vector Word 10) (m : Memory) : (State.powerOn c x m).config = c := rfl
@[simp] theorem powerOn_x (c : Config) (x : Vector Word 10) (m : Memory) : (State.powerOn c x m).x = x := rfl
@[simp] theorem powerOn_mem (c : Config) (x : Vector Word 10) (m : Memory) : (State.powerOn c x m).mem = m := rfl
@[simp] theorem powerOn_pc (c : Config) (x : Vector Word 10) (m : Memory) : (State.powerOn c x m).pc = 0 := rfl
@[simp] theorem powerOn_ic (c : Config) (x : Vector Word 10) (m : Memory) : (State.powerOn c x m).ic = 0 := rfl
@[simp] theorem powerOn_fsm (c : Config) (x : Vector Word 10) (m : Memory) : (State.powerOn c x m).fsm = .ready := rfl
@[simp] theorem powerOn_fault (c : Config) (x : Vector Word 10) (m : Memory) : (State.powerOn c x m).fault = none := rfl

@[simp] theorem readReg_powerOn (c : Config) (x : Vector Word 10) (m : Memory) (i : RegIndex) :
    readReg (State.powerOn c x m) i = x[i] := rfl

end Sys2Proof.Machine
end

