-- ==== Sys2Proof/Laws/Memory.lean ====
section
/-!
SUPPORT. Memory: read after write, and that every operation keeps the canonical form and the ranges. Neither law needs
the canonical form: a write removes every listing of its address first.
-/

namespace Sys2Proof.Machine

@[simp] theorem read_nil (a : Nat) : Memory.read [] a = unlistedWord := rfl

theorem read_cons (c : MemCell) (m : Memory) (a : Nat) :
    Memory.read (c :: m) a = if c.1 = a then c.2 else Memory.read m a := rfl

theorem read_erase (m : Memory) (a b : Nat) :
    Memory.read (Memory.erase m a) b = if b = a then unlistedWord else Memory.read m b := by
  induction m with
  | nil => simp [Memory.erase]
  | cons c m ih =>
    unfold Memory.erase at ih ⊢
    by_cases h : c.1 = a
    · rw [List.filter_cons_of_neg (by simp [h]), ih]
      by_cases hb : b = a
      · simp [hb]
      · simp [hb, read_cons, h, Ne.symm hb]
    · rw [List.filter_cons_of_pos (by simp [h]), read_cons, read_cons, ih]
      by_cases hc : c.1 = b
      · simp [hc, show b ≠ a from fun e => h (hc.trans e)]
      · simp [hc]

theorem read_insert (m : Memory) (a b : Nat) (v : Word) (h : ∀ c ∈ m, c.1 ≠ a) :
    Memory.read (Memory.insert m a v) b = if b = a then v else Memory.read m b := by
  induction m with
  | nil => simp [Memory.insert, read_cons, eq_comm]
  | cons c m ih =>
    have hc : c.1 ≠ a := h c (by simp)
    have ih := ih (fun d hd => h d (by simp [hd]))
    unfold Memory.insert
    split
    · rw [read_cons]; simp [eq_comm]
    · rw [read_cons, read_cons, ih]
      by_cases hb : c.1 = b
      · simp [hb, show b ≠ a from fun e => hc (hb.trans e)]
      · simp [hb]

theorem erase_ne (m : Memory) (a : Nat) : ∀ c ∈ Memory.erase m a, c.1 ≠ a := by
  intro c hc
  simpa using (List.mem_filter.mp hc).2

/-- A read after a write: the written word at the written address, the old word everywhere else (R52). -/
theorem read_write (m : Memory) (a b : Nat) (v : Word) :
    Memory.read (Memory.write m a v) b = if b = a then v else Memory.read m b := by
  unfold Memory.write
  split
  · next h => rw [read_erase, h]
  · rw [read_insert _ _ _ _ (erase_ne m a), read_erase]
    by_cases h : b = a <;> simp [h]

theorem mem_insert {m : Memory} {a : Nat} {v : Word} {c : MemCell} :
    c ∈ Memory.insert m a v ↔ c = (a, v) ∨ c ∈ m := by
  induction m with
  | nil => simp [Memory.insert]
  | cons d m ih =>
    unfold Memory.insert
    split
    · simp
    · simp only [List.mem_cons, ih]
      constructor
      · rintro (h | h | h) <;> simp [h]
      · rintro (h | h | h) <;> simp [h]

/-- Where a listed cell of a written memory comes from. -/
theorem mem_write {m : Memory} {a : Nat} {v : Word} {c : MemCell} (h : c ∈ Memory.write m a v) :
    (c = (a, v) ∧ v ≠ unlistedWord) ∨ c ∈ m := by
  unfold Memory.write at h
  split at h
  · exact .inr (List.mem_filter.mp h).1
  · next hv =>
    rcases mem_insert.mp h with h | h
    · exact .inl ⟨h, hv⟩
    · exact .inr (List.mem_filter.mp h).1

theorem insert_rising {m : Memory} {a : Nat} {v : Word} (hm : m.Pairwise (fun c c' => c.1 < c'.1))
    (ha : ∀ c ∈ m, c.1 ≠ a) : (Memory.insert m a v).Pairwise (fun c c' => c.1 < c'.1) := by
  induction m with
  | nil => simp [Memory.insert]
  | cons c m ih =>
    rw [List.pairwise_cons] at hm
    unfold Memory.insert
    split
    · next h =>
      rw [List.pairwise_cons]
      refine ⟨fun d hd => ?_, List.pairwise_cons.mpr hm⟩
      rcases List.mem_cons.mp hd with rfl | hd
      · exact h
      · exact Nat.lt_trans h (hm.1 d hd)
    · next h =>
      rw [List.pairwise_cons]
      refine ⟨fun d hd => ?_, ih hm.2 (fun d hd => ha d (by simp [hd]))⟩
      have hc : c.1 ≠ a := ha c (by simp)
      rcases mem_insert.mp hd with rfl | hd
      · show c.1 < a
        omega
      · exact hm.1 d hd

/-- Every write keeps the canonical form. -/
theorem write_wf {m : Memory} (hm : m.wf) (a : Nat) (v : Word) : (Memory.write m a v).wf := by
  refine ⟨?_, fun c hc => ?_⟩
  · unfold Memory.write
    split
    · exact hm.1.filter _
    · exact insert_rising (hm.1.filter _) (erase_ne m a)
  · rcases mem_write hc with ⟨rfl, hv⟩ | hc
    · exact hv
    · exact hm.2 c hc

theorem write_inRange {m : Memory} (hm : m.inRange) {a : Nat} {v : Word} (ha : a ≤ 999) (hv : v.toNat ≤ 999) :
    (Memory.write m a v).inRange := by
  intro c hc
  rcases mem_write hc with ⟨rfl, -⟩ | hc
  · exact ⟨Nat.lt_succ_of_le ha, hv⟩
  · exact hm c hc

/-- A memory whose listed values are in 0..999 reads in 0..999 everywhere (R55). -/
theorem read_inRange {m : Memory} (hm : m.inRange) (a : Nat) : (Memory.read m a).toNat ≤ 999 := by
  induction m with
  | nil => simp [unlistedWord]
  | cons c m ih =>
    rw [read_cons]
    split
    · exact (hm c (by simp)).2
    · exact ih (fun d hd => hm d (by simp [hd]))

@[simp] theorem empty_wf : Memory.wf [] := ⟨List.Pairwise.nil, fun _ h => nomatch h⟩

theorem empty_inRange : Memory.inRange [] := fun _ h => nomatch h

theorem reset_memory_wf : State.reset.mem.wf := empty_wf

/-! ### the same at the level of a state -/

theorem readMem_writeMem (s : State) (a b : Nat) (v : Word) :
    readMem (writeMem s a v) b = if b = a then v else readMem s b :=
  read_write s.mem a b v

@[simp] theorem readMem_writeMem_same (s : State) (a : Nat) (v : Word) : readMem (writeMem s a v) a = v := by
  simp [readMem_writeMem]

theorem readMem_writeMem_ne (s : State) {a b : Nat} (v : Word) (h : b ≠ a) :
    readMem (writeMem s a v) b = readMem s b := by
  simp [readMem_writeMem, h]

end Sys2Proof.Machine
end

