-- ==== Sys2Proof/Laws/Exec.lean ====
section
/-!
SUPPORT. What each instruction's execute phase answers, once per instruction, and `exec_cases`: everything an execute
phase can do. Later proofs cite these and do not unfold a meaning.
-/

namespace Sys2Proof.Machine

/-! ### the shared write-and-advance of opcodes 2 to 8 -/

@[simp] theorem writeRegAndAdvance_config (s : State) (d : RegIndex) (v : Word) :
    (writeRegAndAdvance s d v).config = s.config := rfl
@[simp] theorem writeRegAndAdvance_mem (s : State) (d : RegIndex) (v : Word) :
    (writeRegAndAdvance s d v).mem = s.mem := rfl
@[simp] theorem writeRegAndAdvance_pc (s : State) (d : RegIndex) (v : Word) :
    (writeRegAndAdvance s d v).pc = s.pc + 1 := rfl
@[simp] theorem writeRegAndAdvance_ic (s : State) (d : RegIndex) (v : Word) :
    (writeRegAndAdvance s d v).ic = s.ic := rfl
@[simp] theorem writeRegAndAdvance_fsm (s : State) (d : RegIndex) (v : Word) :
    (writeRegAndAdvance s d v).fsm = s.fsm := rfl
@[simp] theorem writeRegAndAdvance_fault (s : State) (d : RegIndex) (v : Word) :
    (writeRegAndAdvance s d v).fault = s.fault := rfl
@[simp] theorem readMem_writeRegAndAdvance (s : State) (d : RegIndex) (v : Word) (a : Nat) :
    readMem (writeRegAndAdvance s d v) a = readMem s a := rfl
theorem readReg_writeRegAndAdvance (s : State) (d j : RegIndex) (v : Word) :
    readReg (writeRegAndAdvance s d v) j = if j = d then v else readReg s j :=
  readReg_writeReg s d j v
@[simp] theorem readReg_writeRegAndAdvance_same (s : State) (d : RegIndex) (v : Word) :
    readReg (writeRegAndAdvance s d v) d = v :=
  readReg_writeReg_same s d v

/-- pc + 1 as a natural number, from a pc that a fetch accepts: never reduced (R25). -/
theorem pc_succ_toNat {p : Word} (h : p.toNat ≤ 999) : (p + 1).toNat = p.toNat + 1 := by
  rw [BitVec.toNat_add]
  simp
  omega

/-! ### one equation per instruction -/

theorem exec_jump_taken {d n : Digit} {s : State} (h : (readReg s n).toNat ≠ 0) :
    exec (.jumpIfNonzero d n) s = .next (jumpTo s (readReg s d)) := by
  show execJumpIfNonzero d n s = _
  rw [execJumpIfNonzero, regOperand, (nz_iff _).mpr h]
  rfl

theorem exec_jump_not_taken {d n : Digit} {s : State} (h : (readReg s n).toNat = 0) :
    exec (.jumpIfNonzero d n) s = .next (advancePc s) := by
  show execJumpIfNonzero d n s = _
  have h' : nz (readReg s n) = false := by
    rw [Bool.eq_false_iff]
    exact fun e => (nz_iff _).mp e h
  rw [execJumpIfNonzero, regOperand, h']
  rfl

theorem exec_halt (d n : Digit) (s : State) : exec (.halt d n) s = .next (enterHalted s) := rfl

theorem exec_noInstruction (d n : Digit) (s : State) : exec (.noInstruction d n) s = .next (raise .opcodeError s) := rfl

theorem exec_load_in_range {d n : Digit} {s : State} (h : (readReg s n).toNat ≤ 999) :
    exec (.loadIndirect d n) s = .next (writeRegAndAdvance s d (readMem s (readReg s n).toNat)) := by
  show execLoadIndirect d n s = _
  rw [execLoadIndirect, indirectAddress_of_le h]

theorem exec_load_out_of_range {d n : Digit} {s : State} (h : 999 < (readReg s n).toNat) :
    exec (.loadIndirect d n) s = .next (raise .addressError s) := by
  show execLoadIndirect d n s = _
  rw [execLoadIndirect, indirectAddress_of_gt h]

theorem exec_store_in_range {d n : Digit} {s : State} (h : (readReg s n).toNat ≤ 999) :
    exec (.storeIndirect d n) s = .next (advancePc (writeMem s (readReg s n).toNat (readReg s d))) := by
  show execStoreIndirect d n s = _
  rw [execStoreIndirect, indirectAddress_of_le h]
  rfl

theorem exec_store_out_of_range {d n : Digit} {s : State} (h : 999 < (readReg s n).toNat) :
    exec (.storeIndirect d n) s = .next (raise .addressError s) := by
  show execStoreIndirect d n s = _
  rw [execStoreIndirect, indirectAddress_of_gt h]

/-! ### everything an execute phase can do -/

/-- The register an instruction writes and the value it writes, for the forms that write one (the table of
spec/10_state.md R22). -/
def regResult (i : Instr) (s : State) : Option (RegIndex × Word) :=
  match i with
  | .loadImmediate d n => some (d, immOperand n)
  | .addImmediate d n => some (d, add1000 (readReg s d) (immOperand n))
  | .mulImmediate d n => some (d, mul1000 (readReg s d) (immOperand n))
  | .move d n => some (d, readReg s n)
  | .addRegs d n => some (d, add1000 (readReg s d) (readReg s n))
  | .mulRegs d n => some (d, mul1000 (readReg s d) (readReg s n))
  | .loadIndirect d n => if (readReg s n).toNat ≤ 999 then some (d, readMem s (readReg s n).toNat) else none
  | .jumpIfNonzero _ _ | .halt _ _ | .storeIndirect _ _ | .noInstruction _ _ => none

/-- Counting the instruction changes no operand. -/
@[simp] theorem regResult_countInstruction (i : Instr) (s : State) : regResult i (countInstruction s) = regResult i s := by
  cases i <;> rfl

/-- The seven ways an execute phase ends, each with its guard. -/
inductive ExecEffect (i : Instr) (s : State) : State → Prop where
  /-- A taken jump (R100). -/
  | jumps (d n : Digit) : i = .jumpIfNonzero d n → (readReg s n).toNat ≠ 0 → ExecEffect i s (jumpTo s (readReg s d))
  /-- A jump not taken (R100). -/
  | fallsThrough (d n : Digit) : i = .jumpIfNonzero d n → (readReg s n).toNat = 0 → ExecEffect i s (advancePc s)
  /-- halt (R101). -/
  | halts (d n : Digit) : i = .halt d n → ExecEffect i s (enterHalted s)
  /-- Opcodes 2 to 8: one register is written and pc advances. -/
  | writesReg (d : RegIndex) (v : Word) : regResult i s = some (d, v) → ExecEffect i s (writeRegAndAdvance s d v)
  /-- Opcode 9: one cell is written and pc advances (R151). -/
  | stores (d n : Digit) : i = .storeIndirect d n → (readReg s n).toNat ≤ 999 →
      ExecEffect i s (advancePc (writeMem s (readReg s n).toNat (readReg s d)))
  /-- Opcode 8 or 9 with its address register out of range (R172 (b)). -/
  | badAddress (d n : Digit) : i = .loadIndirect d n ∨ i = .storeIndirect d n → 999 < (readReg s n).toNat →
      ExecEffect i s (raise .addressError s)
  /-- No instruction (R171). -/
  | badOpcode (d n : Digit) : i = .noInstruction d n → ExecEffect i s (raise .opcodeError s)

/-- Every execute phase answers a next state, and only in one of these ways. -/
theorem exec_cases (i : Instr) (s : State) : ∃ t, exec i s = .next t ∧ ExecEffect i s t := by
  cases i with
  | jumpIfNonzero d n =>
    by_cases h : (readReg s n).toNat = 0
    · exact ⟨_, exec_jump_not_taken h, .fallsThrough d n rfl h⟩
    · exact ⟨_, exec_jump_taken h, .jumps d n rfl h⟩
  | halt d n => exact ⟨_, rfl, .halts d n rfl⟩
  | loadImmediate d n => exact ⟨_, rfl, .writesReg d _ rfl⟩
  | addImmediate d n => exact ⟨_, rfl, .writesReg d _ rfl⟩
  | mulImmediate d n => exact ⟨_, rfl, .writesReg d _ rfl⟩
  | move d n => exact ⟨_, rfl, .writesReg d _ rfl⟩
  | addRegs d n => exact ⟨_, rfl, .writesReg d _ rfl⟩
  | mulRegs d n => exact ⟨_, rfl, .writesReg d _ rfl⟩
  | loadIndirect d n =>
    by_cases h : (readReg s n).toNat ≤ 999
    · exact ⟨_, exec_load_in_range h, .writesReg d _ (by simp [regResult, h])⟩
    · exact ⟨_, exec_load_out_of_range (by omega), .badAddress d n (.inl rfl) (by omega)⟩
  | storeIndirect d n =>
    by_cases h : (readReg s n).toNat ≤ 999
    · exact ⟨_, exec_store_in_range h, .stores d n rfl h⟩
    · exact ⟨_, exec_store_out_of_range (by omega), .badAddress d n (.inr rfl) (by omega)⟩
  | noInstruction d n => exact ⟨_, rfl, .badOpcode d n rfl⟩

/-- The inversion form of `exec_cases`. -/
theorem exec_effect {i : Instr} {s t : State} (h : exec i s = .next t) : ExecEffect i s t := by
  obtain ⟨u, hu, e⟩ := exec_cases i s
  rw [h] at hu
  cases hu
  exact e

/-- The register written is the one the digit d names, by an opcode 2 to 8 (R22). -/
theorem regResult_dest {i : Instr} {s : State} {d : RegIndex} {v : Word} (h : regResult i s = some (d, v)) :
    d = i.dDigit ∧ 2 ≤ i.opcode ∧ i.opcode ≤ 8 := by
  cases i with
  | jumpIfNonzero | halt | storeIndirect | noInstruction => cases h
  | loadImmediate | addImmediate | mulImmediate | move | addRegs | mulRegs => cases h; simp [Instr.dDigit, Instr.opcode]
  | loadIndirect d n =>
    simp only [regResult] at h
    split at h
    · cases h; simp [Instr.dDigit, Instr.opcode]
    · cases h

/-- A load that writes its register had its address in range (R150). -/
theorem regResult_load_in_range {d n : Digit} {s : State} {r : RegIndex × Word}
    (h : regResult (.loadIndirect d n) s = some r) : (readReg s n).toNat ≤ 999 := by
  simp only [regResult] at h
  split at h
  · assumption
  · cases h

/-- A register that an execute phase writes gets a value in 0..999, if registers and cells hold such values (R22). -/
theorem regResult_le {i : Instr} {s : State} {d : RegIndex} {v : Word} (hr : ∀ j : RegIndex, (readReg s j).toNat ≤ 999)
    (hm : s.mem.inRange) (h : regResult i s = some (d, v)) : v.toNat ≤ 999 := by
  cases i with
  | jumpIfNonzero | halt | storeIndirect | noInstruction => cases h
  | loadImmediate d n => cases h; rw [immOperand_toNat]; omega
  | addImmediate d n => cases h; rw [add1000_toNat]; omega
  | mulImmediate d n => cases h; rw [mul1000_toNat]; omega
  | move d n => cases h; exact hr n
  | addRegs d n => cases h; rw [add1000_toNat]; omega
  | mulRegs d n => cases h; rw [mul1000_toNat]; omega
  | loadIndirect d n =>
    simp only [regResult] at h
    split at h
    · cases h; exact read_inRange hm _
    · cases h

end Sys2Proof.Machine
end

