-- ==== Sys2Proof/Laws/Load.lean ====
section
/-!
SUPPORT. LOAD's parts (spec/70_reset_and_hazards.md R200 to R204): its checks and its writes to consecutive cells.
-/

namespace Sys2Proof.Machine

theorem wordInRange_iff (w : Int) : wordInRange w = true ↔ 0 ≤ w ∧ w ≤ 999 := by
  simp [wordInRange]

theorem checkWords_cons (i : Nat) (w : Int) (ws : List Int) :
    checkWords i (w :: ws) =
      if 1000 ≤ i then some .capacityError else if wordInRange w then checkWords (i + 1) ws else some .formatError := rfl

/-- Validation passes exactly when all the positions are below 1000 and all the words are in 0..999. -/
theorem checkWords_eq_none {i : Nat} {ws : List Int} (hi : i ≤ 1000) :
    checkWords i ws = none ↔ i + ws.length ≤ 1000 ∧ ∀ w ∈ ws, 0 ≤ w ∧ w ≤ 999 := by
  induction ws generalizing i with
  | nil => simp [checkWords, hi]
  | cons w ws ih =>
    rw [checkWords_cons]
    by_cases h : 1000 ≤ i
    · rw [if_pos h]
      simp only [reduceCtorEq, List.length_cons, false_iff, not_and]
      omega
    · rw [if_neg h]
      by_cases hw : wordInRange w
      · rw [if_pos hw, ih (by omega)]
        have hw' := (wordInRange_iff w).mp hw
        simp only [List.length_cons, List.forall_mem_cons, hw', and_self, true_and]
        constructor <;> rintro ⟨h1, h2⟩ <;> exact ⟨by omega, h2⟩
      · rw [if_neg hw]
        simp only [reduceCtorEq, List.forall_mem_cons, false_iff, not_and]
        intro _ hc
        exact absurd ((wordInRange_iff w).mpr hc) hw

/-- What a cell reads after consecutive words are written from `a` on. -/
theorem read_writeWords (ws : List Int) (m : Memory) (a b : Nat) :
    Memory.read (writeWords m a ws) b =
      if a ≤ b ∧ b < a + ws.length then BitVec.ofNat 10 (ws.getD (b - a) 0).toNat else Memory.read m b := by
  induction ws generalizing m a with
  | nil =>
    rw [if_neg (by simp)]
    rfl
  | cons w ws ih =>
    show Memory.read (writeWords (m.write a (BitVec.ofNat 10 w.toNat)) (a + 1) ws) b = _
    rw [ih, read_write]
    by_cases hb : b = a
    · subst hb
      rw [if_neg (by omega), if_pos rfl, if_pos ⟨Nat.le_refl b, by simp⟩]
      simp
    · by_cases h : a ≤ b ∧ b < a + (w :: ws).length
      · have hlt : a < b := by omega
        have hlen : b < a + 1 + ws.length := by
          have := h.2; simp only [List.length_cons] at this; omega
        rw [if_pos h, if_pos ⟨hlt, hlen⟩]
        obtain ⟨k, rfl⟩ : ∃ k, b = a + 1 + k := ⟨b - (a + 1), by omega⟩
        rw [show a + 1 + k - (a + 1) = k by omega, show a + 1 + k - a = k + 1 by omega]
        simp
      · rw [if_neg h, if_neg, if_neg hb]
        rintro ⟨h1, h2⟩
        exact h ⟨by omega, by simp only [List.length_cons]; omega⟩

theorem writeWords_wf (ws : List Int) {m : Memory} (hm : m.wf) (a : Nat) : (writeWords m a ws).wf := by
  induction ws generalizing m a with
  | nil => exact hm
  | cons w ws ih => exact ih (write_wf hm _ _) _

theorem writeWords_inRange (ws : List Int) {m : Memory} (hm : m.inRange) {a : Nat} (ha : a + ws.length ≤ 1000)
    (hw : ∀ w ∈ ws, 0 ≤ w ∧ w ≤ 999) : (writeWords m a ws).inRange := by
  induction ws generalizing m a with
  | nil => exact hm
  | cons w ws ih =>
    rw [List.length_cons] at ha
    have h := hw w (by simp)
    refine ih (write_inRange hm (by omega) ?_) (by omega) fun w' hw' => hw w' (by simp [hw'])
    rw [BitVec.toNat_ofNat]
    omega

/-- A LOAD whose checks fail answers the error and the same state (R203). -/
theorem load_err {words : List Int} {s : State} {e : LoadError} (hf : s.fsm ≠ .running)
    (h : checkWords 0 words = some e) : load words s = .next (s, .err e) := by
  unfold load
  cases hs : s.fsm with
  | running => exact absurd hs hf
  | ready | halted | faulted => simp [h]

/-- A LOAD whose checks pass leaves the loaded state (R200). -/
theorem load_ok {words : List Int} {s : State} (hf : s.fsm ≠ .running) (h : checkWords 0 words = none) :
    load words s = .next (loadedState words s, .ok) := by
  unfold load
  cases hs : s.fsm with
  | running => exact absurd hs hf
  | ready | halted | faulted => simp [h]

/-- Everything a LOAD can do. -/
theorem load_cases {words : List Int} {s t : State} {r : LoadReply} (h : load words s = .next (t, r)) :
    s.fsm ≠ .running ∧
    ((∃ e, checkWords 0 words = some e ∧ t = s ∧ r = .err e) ∨
     (checkWords 0 words = none ∧ t = loadedState words s ∧ r = .ok)) := by
  have hf : s.fsm ≠ .running := by
    intro e
    simp [load, e] at h
  refine ⟨hf, ?_⟩
  cases hc : checkWords 0 words with
  | some e => rw [load_err hf hc] at h; cases h; exact .inl ⟨e, rfl, rfl, rfl⟩
  | none => rw [load_ok hf hc] at h; cases h; exact .inr ⟨rfl, rfl, rfl⟩

theorem readReg_loadedState (words : List Int) (s : State) (i : RegIndex) : readReg (loadedState words s) i = 0 := by
  simp [readReg, loadedState]

end Sys2Proof.Machine
end

