-- ==== Sys2Proof/Laws/PerInstr.lean ====
section
/-!
SUPPORT. The family EncodedWord, one lemma per constructor: the encoder writes the decimal word
`100*op + 10*d + n` (spec/30_encoding.md R60), with nothing lost in the 10-bit cell.
-/

namespace Sys2Proof.Laws.EncodedWord

/-- The number in the cell is the decimal word of the instruction's three digits. -/
def Statement (i : Instr) : Prop :=
  i.WellFormed → (encode i).toNat = 100 * i.opcode + 10 * i.dDigit.val + i.nDigit.val

theorem of_small_opcode {i : Instr} (h : i.opcode ≤ 9) : Statement i := by
  intro _
  rw [encode_eq_wordOf]
  exact wordOf_toNat (by omega)

theorem jumpIfNonzero (d n : Digit) : Statement (.jumpIfNonzero d n) := of_small_opcode (by simp [Instr.opcode])
theorem halt (d n : Digit) : Statement (.halt d n) := of_small_opcode (by simp [Instr.opcode])
theorem loadImmediate (d n : Digit) : Statement (.loadImmediate d n) := of_small_opcode (by simp [Instr.opcode])
theorem addImmediate (d n : Digit) : Statement (.addImmediate d n) := of_small_opcode (by simp [Instr.opcode])
theorem mulImmediate (d n : Digit) : Statement (.mulImmediate d n) := of_small_opcode (by simp [Instr.opcode])
theorem move (d n : Digit) : Statement (.move d n) := of_small_opcode (by simp [Instr.opcode])
theorem addRegs (d n : Digit) : Statement (.addRegs d n) := of_small_opcode (by simp [Instr.opcode])
theorem mulRegs (d n : Digit) : Statement (.mulRegs d n) := of_small_opcode (by simp [Instr.opcode])
theorem loadIndirect (d n : Digit) : Statement (.loadIndirect d n) := of_small_opcode (by simp [Instr.opcode])
theorem storeIndirect (d n : Digit) : Statement (.storeIndirect d n) := of_small_opcode (by simp [Instr.opcode])

theorem noInstruction (d n : Digit) : Statement (.noInstruction d n) := by
  intro h
  have h' : 10 * d.val + n.val ≤ 23 := by
    simpa [Instr.WellFormed, Instr.wellFormed, noInstructionDigitsFit] using h
  exact wordOf_toNat (by omega)

end Sys2Proof.Laws.EncodedWord
end

