-- ==== Sys2Proof/Laws/Step.lean ====
section
/-!
SUPPORT. Everything a step can do (spec/40_execution_cycle.md R80), said once.
-/

namespace Sys2Proof.Machine

theorem fetch_of_le {s : State} (h : s.pc.toNat ≤ 999) : fetch s = some (readMem s s.pc.toNat) := by
  simp [fetch, h]

theorem fetch_of_gt {s : State} (h : 999 < s.pc.toNat) : fetch s = none := by
  simp [fetch, show ¬ s.pc.toNat ≤ 999 by omega]

/-! ### the limit check (R88) -/

/-- The check is passed outside Running, and in Running below the ceiling. -/
theorem limitCheck_pass {s : State} (h : s.fsm = .running → s.ic < s.config.insnLimit) : limitCheck s = s := by
  unfold limitCheck
  rw [if_neg]
  rintro ⟨hf, hl⟩
  exact Nat.not_le.mpr (h hf) hl

theorem limitCheck_fail {s : State} (hf : s.fsm = .running) (hl : s.config.insnLimit ≤ s.ic) :
    limitCheck s = raise .limitExceededError s := by
  simp [limitCheck, hf, hl]

theorem limitCheck_cases (s : State) :
    (limitCheck s = s ∧ (s.fsm = .running → s.ic < s.config.insnLimit)) ∨
    (limitCheck s = raise .limitExceededError s ∧ s.fsm = .running ∧ s.config.insnLimit ≤ s.ic) := by
  by_cases h : s.fsm = .running ∧ s.config.insnLimit ≤ s.ic
  · exact .inr ⟨limitCheck_fail h.1 h.2, h⟩
  · refine .inl ⟨?_, fun hf => Nat.lt_of_not_le fun hl => h ⟨hf, hl⟩⟩
    exact limitCheck_pass fun hf => Nat.lt_of_not_le fun hl => h ⟨hf, hl⟩

@[simp] theorem limitCheck_config (s : State) : (limitCheck s).config = s.config := by
  rcases limitCheck_cases s with ⟨h, -⟩ | ⟨h, -⟩ <;> simp only [h, raise]
@[simp] theorem limitCheck_x (s : State) : (limitCheck s).x = s.x := by
  rcases limitCheck_cases s with ⟨h, -⟩ | ⟨h, -⟩ <;> simp only [h, raise]
@[simp] theorem limitCheck_mem (s : State) : (limitCheck s).mem = s.mem := by
  rcases limitCheck_cases s with ⟨h, -⟩ | ⟨h, -⟩ <;> simp only [h, raise]
@[simp] theorem limitCheck_pc (s : State) : (limitCheck s).pc = s.pc := by
  rcases limitCheck_cases s with ⟨h, -⟩ | ⟨h, -⟩ <;> simp only [h, raise]
@[simp] theorem limitCheck_ic (s : State) : (limitCheck s).ic = s.ic := by
  rcases limitCheck_cases s with ⟨h, -⟩ | ⟨h, -⟩ <;> simp only [h, raise]
@[simp] theorem readReg_limitCheck (s : State) (j : RegIndex) : readReg (limitCheck s) j = readReg s j := by
  unfold readReg; rw [limitCheck_x]
@[simp] theorem readMem_limitCheck (s : State) (a : Nat) : readMem (limitCheck s) a = readMem s a := by
  unfold readMem; rw [limitCheck_mem]

/-! ### the step -/

/-- The fetch bounds check fails (R81). -/
theorem step_of_pc_out {s : State} (hf : s.fsm = .running) (hp : 999 < s.pc.toNat) :
    step s = .next (raise .addressError s) := by
  simp [step, hf, fetch_of_gt hp]

/-- The step is the execute phase of the word at pc, in the counted state, then the limit check. -/
theorem step_of_exec {s t : State} (hf : s.fsm = .running) (hp : s.pc.toNat ≤ 999)
    (h : exec (decode (readMem s s.pc.toNat)) (countInstruction s) = .next t) : step s = .next (limitCheck t) := by
  simp [step, hf, fetch_of_le hp, h]

/-- Everything a step can do. -/
theorem step_cases {s t : State} (h : step s = .next t) :
    s.fsm = .running ∧
    ((999 < s.pc.toNat ∧ t = raise .addressError s) ∨
     (s.pc.toNat ≤ 999 ∧ ∃ u, ExecEffect (decode (readMem s s.pc.toNat)) (countInstruction s) u ∧ t = limitCheck u)) := by
  have hf : s.fsm = .running := by
    unfold step at h
    cases e : s.fsm with
    | running => rfl
    | ready | halted | faulted => simp [e] at h
  refine ⟨hf, ?_⟩
  by_cases hp : s.pc.toNat ≤ 999
  · obtain ⟨u, hu, he⟩ := exec_cases (decode (readMem s s.pc.toNat)) (countInstruction s)
    rw [step_of_exec hf hp hu] at h
    cases h
    exact .inr ⟨hp, u, he, rfl⟩
  · rw [step_of_pc_out hf (by omega)] at h
    cases h
    exact .inl ⟨by omega, rfl⟩

/-- In Running a step always answers a next state: no instruction is refused and none stops the model. -/
theorem step_answers {s : State} (hf : s.fsm = .running) : ∃ t, step s = .next t := by
  by_cases hp : s.pc.toNat ≤ 999
  · obtain ⟨u, hu, -⟩ := exec_cases (decode (readMem s s.pc.toNat)) (countInstruction s)
    exact ⟨_, step_of_exec hf hp hu⟩
  · exact ⟨_, step_of_pc_out hf (by omega)⟩

/-! ### the host's fetch word -/

theorem fetch_withFetchWord (s : State) (nbits w : Nat) :
    fetch (s.withFetchWord nbits w) = some (BitVec.ofNat 10 w) := by
  unfold State.withFetchWord placeAtPc
  by_cases h : s.pc.toNat ≤ 999
  · rw [if_pos ((addressExists_iff _).mpr h), fetch_of_le (by simpa using h)]
    simp
  · rw [if_neg (by simpa using h), fetch_of_le (by simp)]
    simp

end Sys2Proof.Machine
end

