-- ==== Sys2Proof/Laws/Run.lean ====
section
/-!
SUPPORT. RUN's loop, one equation per case (spec/40_execution_cycle.md R90).
-/

namespace Sys2Proof.Machine

theorem runLoop_stopped {s : State} (h : s.fsm ≠ .running) (fuel : Nat) : runLoop fuel s = .next s := by
  cases fuel with
  | zero => rfl
  | succ k =>
    unfold runLoop
    cases hs : s.fsm with
    | running => exact absurd hs h
    | ready | halted | faulted => rfl

theorem runLoop_step {s t : State} (h : step s = .next t) (fuel : Nat) : runLoop (fuel + 1) s = runLoop fuel t := by
  rw [runLoop]
  simp [(step_cases h).1, h]

/-- The loop never stops the model: every step it takes is in Running. -/
theorem runLoop_answers (fuel : Nat) (s : State) : ∃ t, runLoop fuel s = .next t := by
  induction fuel generalizing s with
  | zero => exact ⟨s, rfl⟩
  | succ k ih =>
    by_cases h : s.fsm = .running
    · obtain ⟨t, ht⟩ := step_answers h
      rw [runLoop_step ht]
      exact ih t
    · exact ⟨s, runLoop_stopped h _⟩

/-- A RUN that answers: it began in Ready, and its reply is read from the state its loop ended in. -/
theorem run_cases {s t : State} {r : RunReply} (h : run s = .next (t, r)) :
    s.fsm = .ready ∧ runLoop (runFuel s) (startRun s) = .next t ∧ runReply t = some r := by
  have hf : s.fsm = .ready := by
    unfold run at h
    cases e : s.fsm with
    | ready => rfl
    | running | halted | faulted => simp [e] at h
  refine ⟨hf, ?_⟩
  obtain ⟨u, hu⟩ := runLoop_answers (runFuel s) (startRun s)
  simp only [run, hf, hu] at h
  cases hr : runReply u with
  | none => simp [hr] at h
  | some r' =>
    simp only [hr] at h
    cases h
    exact ⟨hu, hr⟩

end Sys2Proof.Machine
end

