-- ==== Sys2Proof/Tests/Slice0.lean ====
section
/-!
SUPPORT. The model's own tests: well-formedness, decoding by words written out from the spec's encoding, one step on small
states (spec/95_test_vectors.md §2.2 and §2.3, and the examples of the rules), and a witness for the hypotheses of every
statement.
-/

namespace Sys2Proof.Tests

open Sys2Proof.Machine

/-! ## Well-formedness and decoding -/

/-- 10*2 + 4 = 24: the word 1024 fits in no 10-bit cell. -/
theorem test_wellFormed_refuses_1024 : ¬ (Instr.noInstruction 2 4).WellFormed := by decide

theorem test_wellFormed_accepts_1023 : (Instr.noInstruction 2 3).WellFormed := by decide

/-! Each word is written from R60's fields `op d n` (spec/95_test_vectors.md §2.1 and the examples of the rules). -/
theorem test_decode_jumpIfNonzero : decode 0b0000011001 = .jumpIfNonzero 2 5 := by decide  -- 025
theorem test_decode_halt : decode 0b0011000111 = .halt 9 9 := by decide                    -- 199
theorem test_decode_loadImmediate : decode 0b0011001001 = .loadImmediate 0 1 := by decide  -- 201
theorem test_decode_addImmediate : decode 0b0101001111 = .addImmediate 3 5 := by decide    -- 335
theorem test_decode_mulImmediate : decode 0b0111010110 = .mulImmediate 7 0 := by decide    -- 470
theorem test_decode_move : decode 0b1001010010 = .move 9 4 := by decide                    -- 594
theorem test_decode_addRegs : decode 0b1001100100 = .addRegs 1 2 := by decide              -- 612
theorem test_decode_mulRegs : decode 0b1011111101 = .mulRegs 6 5 := by decide              -- 765
theorem test_decode_loadIndirect : decode 0b1100101001 = .loadIndirect 0 9 := by decide    -- 809
theorem test_decode_storeIndirect : decode 0b1111100111 = .storeIndirect 9 9 := by decide  -- 999
theorem test_decode_noInstruction : decode 0b1111111111 = .noInstruction 2 3 := by decide  -- 1023

theorem test_decodeTableWord_reads_a_cell : decodeTableWord 16 965 = some (.storeIndirect 6 5) := by decide
theorem test_decodeTableWord_refuses_1024 : decodeTableWord 16 1024 = none := by decide

/-! ## One step on small states -/

/-- A Running state: INSN_LIMIT, pc, ic, the non-zero registers and cells; every other register and cell is 0. -/
def small (limit pc ic : Nat) (regs : List (RegIndex × Nat)) (cells : List (Nat × Nat)) : State :=
  let s : State :=
    { config := ⟨limit⟩, x := Vector.replicate 10 0, mem := [], pc := BitVec.ofNat 10 pc, ic := ic, fsm := .running,
      fault := none }
  let s := regs.foldl (fun s r => writeReg s r.1 (BitVec.ofNat 10 r.2)) s
  cells.foldl (fun s c => writeMem s c.1 (BitVec.ofNat 10 c.2)) s

/-- The state an outcome gives, if it gives one. -/
def nextState (o : Host.Outcome State Fault Refusal) : Option State :=
  match o with
  | .next t => some t
  | .fault _ | .refused _ => none

/-- What a step leaves in pc, ic, fsm and fault. -/
def control (s : State) : Option (Nat × Nat × Fsm × Option RuntimeFault) :=
  (nextState (step s)).map fun t => (t.pc.toNat, t.ic, t.fsm, t.fault)

/-- What a step leaves in a register. -/
def regAfter (s : State) (i : RegIndex) : Option Nat := (nextState (step s)).map fun t => (readReg t i).toNat

/-- What a step leaves in a cell. -/
def cellAfter (s : State) (a : Nat) : Option Nat := (nextState (step s)).map fun t => (readMem t a).toNat

-- J1, J9: taken; not taken at 999.
theorem test_jump_taken :
    control (small 10000 10 0 [(2, 7), (5, 1)] [(10, 25)]) = some (7, 1, .running, none) := by decide
theorem test_jump_not_taken_at_999 : control (small 10000 999 0 [] [(999, 12)]) = some (1000, 1, .running, none) := by decide
-- H2, H3: digits ignored; a halt on the INSN_LIMIT-th instruction.
theorem test_halt_ignores_digits : control (small 10000 5 0 [(9, 3)] [(5, 199)]) = some (5, 1, .halted, none) := by decide
theorem test_halt_at_the_limit : control (small 10 5 9 [] [(5, 100)]) = some (5, 10, .halted, none) := by decide
-- A2, A3.
theorem test_loadImmediate_zero : regAfter (small 10000 0 0 [(7, 555)] [(0, 270)]) 7 = some 0 := by decide
theorem test_loadImmediate_nine : regAfter (small 10000 0 0 [(9, 123)] [(0, 299)]) 9 = some 9 := by decide
-- A4, A5.
theorem test_addImmediate_wraps : regAfter (small 10000 0 0 [(3, 998)] [(0, 335)]) 3 = some 3 := by decide
theorem test_addImmediate_999_1 : regAfter (small 10000 0 0 [(9, 999)] [(0, 391)]) 9 = some 0 := by decide
-- A8, A9.
theorem test_mulImmediate_to_zero : regAfter (small 10000 0 0 [(1, 200)] [(0, 415)]) 1 = some 0 := by decide
theorem test_mulImmediate_largest : regAfter (small 10000 0 0 [(8, 999)] [(0, 489)]) 8 = some 991 := by decide
-- A11: the destination is d and the source n.
theorem test_move_destination : regAfter (small 10000 0 0 [(4, 123)] [(0, 594)]) 9 = some 123 := by decide
theorem test_move_source : regAfter (small 10000 0 0 [(4, 123)] [(0, 594)]) 4 = some 123 := by decide
-- A14, A17.
theorem test_addRegs_same : regAfter (small 10000 0 0 [(4, 500)] [(0, 644)]) 4 = some 0 := by decide
theorem test_addRegs_largest : regAfter (small 10000 0 0 [(1, 999), (2, 999)] [(0, 612)]) 1 = some 998 := by decide
-- A18, A19.
theorem test_mulRegs : regAfter (small 10000 0 0 [(5, 50), (6, 7)] [(0, 765)]) 6 = some 350 := by decide
theorem test_mulRegs_same : regAfter (small 10000 0 0 [(3, 999)] [(0, 733)]) 3 = some 1 := by decide
-- M2, M3.
theorem test_loadIndirect_same : regAfter (small 10000 0 0 [(1, 500)] [(0, 811), (500, 123)]) 1 = some 123 := by decide
theorem test_loadIndirect_999 : regAfter (small 10000 0 0 [(3, 999)] [(0, 823), (999, 42)]) 2 = some 42 := by decide
-- M4, M6.
theorem test_storeIndirect : cellAfter (small 10000 5 0 [(5, 50), (6, 350)] [(5, 965)]) 50 = some 350 := by decide
theorem test_storeIndirect_own_address :
    cellAfter (small 10000 3 0 [(1, 100), (2, 3)] [(3, 912)]) 3 = some 100 := by decide
-- R68: a never stored word.
theorem test_noInstruction : control (small 10000 4 0 [] [(4, 1000)]) = some (4, 1, .faulted, some .opcodeError) := by decide
-- F1, F2, F3, F4.
theorem test_fetch_at_1000 : control (small 10000 1000 0 [] []) = some (1000, 0, .faulted, some .addressError) := by decide
theorem test_limit_reached : control (small 10 5 9 [] [(5, 211)]) = some (6, 10, .faulted, some .limitExceededError) := by decide
theorem test_limit_before_address_error :
    control (small 10 999 9 [] [(999, 211)]) = some (1000, 10, .faulted, some .limitExceededError) := by decide
theorem test_below_the_limit : control (small 10 5 8 [] [(5, 211)]) = some (6, 9, .running, none) := by decide

/-- The host's fetch word runs as the first instruction after reset. -/
theorem test_withFetchWord : regAfter (State.reset.withFetchWord 16 299) 9 = some 9 := by decide

/-! ## LOAD and RUN -/

/-- LOAD's reply. -/
def loadReply (words : List Int) (s : State) : Option LoadReply :=
  match load words s with
  | .next (_, r) => some r
  | .fault _ | .refused _ => none

-- L3, L9 and L2's first cell.
theorem test_load_1000_is_a_format_error : loadReply [201, 1000] State.reset = some (.err .formatError) := by decide
theorem test_load_negative_is_a_format_error : loadReply [-1] State.reset = some (.err .formatError) := by decide
theorem test_load_installs_999 : readMem (loadedState [0, 999] State.reset) 1 = 999 := by decide

/-- A machine loaded with the source's own example E1 (program P1): `201, 101`. -/
def loadedP1 : State := loadedState [201, 101] State.reset

/-- RUN's reply. -/
def runResult (s : State) : Option RunReply :=
  match run s with
  | .next (_, r) => some r
  | .fault _ | .refused _ => none

theorem test_run_P1_counts_the_halt : runResult loadedP1 = some (.ok 2) := by decide

/-! ## Witnesses: a concrete state and operands that meet each statement's hypotheses together -/

theorem witness_DecoderSplitsDecimalDigits : (999 : Word).toNat ≤ 999 := by decide

theorem witness_DecodeOfEncode : (Instr.storeIndirect 9 9).WellFormed ∧ (Instr.noInstruction 2 3).WellFormed := by decide

theorem witness_OpcodeSelectedByWordRange :
    (decode 900).opcode = 9 ∧ (decode 999).opcode = 9 ∧ (decode 1000).opcode = 10 ∧ 9 ≤ 9 := by decide

theorem witness_EveryStoredWordIsLegal :
    (999 : Word).toNat ≤ 999 ∧ State.reset.fault = none ∧ (100 ≤ (100 : Word).toNat ∧ (199 : Word).toNat ≤ 199) ∧
    (small 10 999 0 [] []).pc.toNat ≤ 999 := by decide

/-- A state about to run the word `w` at 999, the last cell; x[1] = 7, x[2] = 999, x[3] = 1000 (a value no reachable state
holds). -/
def atLastCell (w : Nat) : State := small 10000 999 0 [(1, 7), (2, 999), (3, 1000)] [(999, w)]

theorem witness_JumpIfNonzeroEffect :
    ((readReg (atLastCell 0) 1).toNat ≠ 0 ∧ (readReg (atLastCell 0) 0).toNat = 0) ∧ (atLastCell 0).pc.toNat ≤ 999 := by
  decide

theorem witness_HaltEffect : AboutToRun (.halt 9 9) (atLastCell 199) := ⟨rfl, by decide, by decide⟩

theorem witness_NoInstructionRaisesOpcodeError : 10 * (2 : Digit).val + (3 : Digit).val ≤ 23 := by decide

/-- The hypothesis inside PcAdvanced, for LoadImmediateResult, AddImmediateResult, MulImmediateResult, MoveResult,
AddRegsResult, MulRegsResult, LoadIndirectEffect and StoreIndirectEffect. -/
theorem witness_PcAdvanced : (atLastCell 201).pc.toNat ≤ 999 := by decide

theorem witness_RegisterWritersFrame :
    (exec (.loadImmediate 1 9) (atLastCell 0) = .next (writeRegAndAdvance (atLastCell 0) 1 9) ∧
     exec (.addImmediate 1 9) (atLastCell 0) = .next (writeRegAndAdvance (atLastCell 0) 1 16) ∧
     exec (.mulImmediate 1 9) (atLastCell 0) = .next (writeRegAndAdvance (atLastCell 0) 1 63) ∧
     exec (.move 1 2) (atLastCell 0) = .next (writeRegAndAdvance (atLastCell 0) 1 999) ∧
     exec (.addRegs 1 2) (atLastCell 0) = .next (writeRegAndAdvance (atLastCell 0) 1 6) ∧
     exec (.mulRegs 1 2) (atLastCell 0) = .next (writeRegAndAdvance (atLastCell 0) 1 993)) ∧
    ((readReg (atLastCell 822) 2).toNat ≤ 999 ∧
     exec (.loadIndirect 1 2) (atLastCell 822) = .next (writeRegAndAdvance (atLastCell 822) 1 822)) :=
  ⟨⟨rfl, rfl, rfl, rfl, rfl, rfl⟩, by decide, rfl⟩

theorem witness_AluReducesModThousand : (999 : Word).toNat ≤ 999 ∧ (0 : Word).toNat ≤ 999 := by decide

theorem witness_AluFormsTheRingModThousand :
    (999 : Word).toNat ≤ 999 ∧ (1 : Word).toNat ≤ 999 ∧ (500 : Word).toNat ≤ 999 := by decide

theorem witness_LoadIndirectEffect :
    (readReg (atLastCell 0) 2).toNat ≤ 999 ∧ 999 < (readReg (atLastCell 0) 3).toNat := by decide

theorem witness_StoreIndirectEffect :
    (readReg (atLastCell 0) 2).toNat ≤ 999 ∧ 999 < (readReg (atLastCell 0) 3).toNat := by decide

theorem witness_StoreFrame :
    indirectAddress (atLastCell 912) 2 = some 999 ∧
    exec (.storeIndirect 1 2) (atLastCell 912) = .next (advancePc (writeMem (atLastCell 912) 999 7)) :=
  ⟨by decide, rfl⟩

theorem witness_CanonicalMemoriesThatReadAlikeAreEqual :
    Memory.wf [(0, 1), (999, 999)] ∧ Memory.wf (Memory.write [(0, 1)] 999 999) ∧
    Memory.write [(0, 1)] 999 999 = [(0, 1), (999, 999)] := by decide

theorem witness_StepRunsTheDecodedInstruction : AboutToRun (.move 1 2) (atLastCell 512) := ⟨rfl, by decide, by decide⟩

theorem witness_FetchOutsideMemoryRaisesAddressError :
    (small 10 1000 0 [] []).fsm = .running ∧ 999 < (small 10 1000 0 [] []).pc.toNat ∧ SafeState (small 10 1000 0 [] []) :=
  ⟨rfl, by decide, by constructor <;> decide⟩

theorem witness_EveryFetchedInstructionIsCounted :
    ((atLastCell 0).fsm = .running ∧ (atLastCell 0).pc.toNat ≤ 999) ∧
    ((small 10 1000 0 [] []).fsm = .running ∧ ¬ (small 10 1000 0 [] []).pc.toNat ≤ 999) := by decide

/-- Every arm of StepUpdatesPc, and both sides of its three conditions: the word decodes to the instruction shown, and the
step answers. -/
theorem witness_StepUpdatesPc :
    ∀ p ∈ [(11, Instr.jumpIfNonzero 1 1), (10, .jumpIfNonzero 1 0), (199, .halt 9 9), (1000, .noInstruction 0 0),
      (812, .loadIndirect 1 2), (813, .loadIndirect 1 3), (912, .storeIndirect 1 2), (913, .storeIndirect 1 3),
      (219, .loadImmediate 1 9), (319, .addImmediate 1 9), (419, .mulImmediate 1 9), (512, .move 1 2), (612, .addRegs 1 2),
      (712, .mulRegs 1 2)],
    ((atLastCell p.1).fsm = .running ∧ (atLastCell p.1).pc.toNat ≤ 999 ∧
      decode (readMem (atLastCell p.1) (atLastCell p.1).pc.toNat) = p.2) ∧
    (nextState (step (atLastCell p.1))).isSome = true := by decide

theorem witness_LimitIsCheckedAfterTheExecutePhase :
    (AboutToRun (.loadImmediate 1 1) (small 10 5 9 [] [(5, 211)]) ∧
      (nextState (exec (.loadImmediate 1 1) (countInstruction (small 10 5 9 [] [(5, 211)])))).map State.fsm = some .running ∧
      10 ≤ 9 + 1) ∧
    (AboutToRun (.loadImmediate 1 1) (small 10 5 8 [] [(5, 211)]) ∧
      (nextState (exec (.loadImmediate 1 1) (countInstruction (small 10 5 8 [] [(5, 211)])))).map State.fsm = some .running ∧
      8 + 1 < 10) ∧
    (AboutToRun (.halt 0 0) (small 10 5 9 [] [(5, 100)]) ∧
      (nextState (exec (.halt 0 0) (countInstruction (small 10 5 9 [] [(5, 100)])))).map State.fsm = some .halted) :=
  ⟨⟨⟨rfl, by decide, by decide⟩, by decide, by decide⟩, ⟨⟨rfl, by decide, by decide⟩, by decide, by decide⟩,
   ⟨rfl, by decide, by decide⟩, by decide⟩

/-- A register write and a store, each changing what the statement speaks of. -/
theorem witness_StepWritesOnlyWhatItsOpcodeWrites :
    (AboutToRun (.loadImmediate 1 9) (atLastCell 219) ∧ regAfter (atLastCell 219) 1 = some 9 ∧
      (readReg (atLastCell 219) 1).toNat = 7) ∧
    (AboutToRun (.storeIndirect 1 2) (atLastCell 912) ∧ cellAfter (atLastCell 912) 999 = some 7 ∧
      (readMem (atLastCell 912) 999).toNat = 912) :=
  ⟨⟨⟨rfl, by decide, by decide⟩, by decide, by decide⟩, ⟨⟨rfl, by decide, by decide⟩, by decide, by decide⟩⟩

/-- Two states that differ in a register and a cell that the instruction does not read. -/
theorem witness_InstructionReadsOnlyItsOperands :
    (∀ j ∈ regsRead (.loadIndirect 1 2), readReg (atLastCell 812) j = readReg (writeReg (atLastCell 812) 9 5) j) ∧
    readMem (atLastCell 812) 999 = readMem (writeMem (writeReg (atLastCell 812) 9 5) 4 4) 999 ∧
    readReg (atLastCell 812) 9 ≠ readReg (writeReg (atLastCell 812) 9 5) 9 ∧
    (nextState (exec (.loadIndirect 1 2) (atLastCell 812))).map State.pc = some ((atLastCell 812).pc + 1) ∧
    (nextState (exec (.loadIndirect 1 2) (writeMem (writeReg (atLastCell 812) 9 5) 4 4))).isSome = true ∧
    indirectAddress (atLastCell 912) 2 = some 999 := by decide

/-- The first two clauses of NextFetchSeesTheStore: a store step at the last cell, and a step that stores nothing. -/
theorem witness_NextFetchSeesTheStore_steps :
    (atLastCell 912).pc.toNat ≤ 999 ∧ (nextState (step (atLastCell 912))).isSome = true ∧
    AboutToRun (.storeIndirect 1 2) (atLastCell 912) ∧ indirectAddress (atLastCell 912) 2 = some 999 ∧
    (nextState (step (atLastCell 201))).isSome = true ∧ ∀ d n, ¬ AboutToRun (.storeIndirect d n) (atLastCell 201) :=
  ⟨by decide, by decide, ⟨rfl, by decide, by decide⟩, by decide, by decide, fun _ _ h => by
    have e : decode (readMem (atLastCell 201) 999) = .loadImmediate 0 1 := by decide
    exact Instr.noConfusion (e.symm.trans h.2.2)⟩

/-- The last clause of NextFetchSeesTheStore, at its boundary: a store at 998 to 999. -/
theorem witness_NextFetchSeesTheStore :
    AboutToRun (.storeIndirect 1 2) (small 10 998 0 [(1, 100), (2, 999)] [(998, 912)]) ∧
    (readReg (small 10 998 0 [(1, 100), (2, 999)] [(998, 912)]) 2).toNat =
      (small 10 998 0 [(1, 100), (2, 999)] [(998, 912)]).pc.toNat + 1 ∧
    (readReg (small 10 998 0 [(1, 100), (2, 999)] [(998, 912)]) 2).toNat ≤ 999 ∧ 0 + 1 < 10 :=
  ⟨⟨rfl, by decide, by decide⟩, by decide, by decide, by decide⟩

theorem witness_StoreToItsOwnAddress :
    AboutToRun (.storeIndirect 1 2) (atLastCell 912) ∧ readReg (atLastCell 912) 2 = (atLastCell 912).pc :=
  ⟨⟨rfl, by decide, by decide⟩, by decide⟩

theorem witness_ExecutePhaseFaultLeavesTheState :
    AboutToRun (.noInstruction 0 0) (atLastCell 1000) ∧
    (AboutToRun (.loadIndirect 1 3) (atLastCell 813) ∧ 999 < (readReg (atLastCell 813) 3).toNat) ∧
    (AboutToRun (.storeIndirect 1 3) (atLastCell 913) ∧ 999 < (readReg (atLastCell 913) 3).toNat) :=
  ⟨⟨rfl, by decide, by decide⟩, ⟨⟨rfl, by decide, by decide⟩, by decide⟩, ⟨⟨rfl, by decide, by decide⟩, by decide⟩⟩

/-- A state for each line of FaultsAreCheckedInOrder. -/
theorem witness_FaultsAreCheckedInOrder :
    ∀ s ∈ [small 10 1000 9 [] [], atLastCell 1000, small 10 5 9 [] [(5, 100)], atLastCell 813, small 10 5 9 [] [(5, 800)],
      small 10 5 9 [] [(5, 211)], small 10 5 8 [] [(5, 211)]],
    s.fsm = .running ∧ s.fault = none := by decide

theorem witness_StepIsDefinedExactlyInRunning : (atLastCell 0).fsm = .running ∧ State.reset.fsm ≠ .running := by decide

/-- For StepTransitionsOfTheStateMachine and StepKeepsTheInvariant: a safe state whose step answers, one for each kind of
transition. -/
theorem witness_StepKeepsTheInvariant :
    (SafeState (small 10 5 8 [] [(5, 211)]) ∧ (nextState (step (small 10 5 8 [] [(5, 211)]))).map State.fsm = some .running) ∧
    (SafeState (small 10 5 9 [] [(5, 100)]) ∧ (nextState (step (small 10 5 9 [] [(5, 100)]))).map State.fsm = some .halted) ∧
    (SafeState (small 10 5 9 [] [(5, 211)]) ∧ (nextState (step (small 10 5 9 [] [(5, 211)]))).map State.fsm = some .faulted) ∧
    (SafeState (small 10 1000 9 [] []) ∧ (nextState (step (small 10 1000 9 [] []))).map State.fsm = some .faulted) :=
  ⟨⟨by constructor <;> decide, by decide⟩, ⟨by constructor <;> decide, by decide⟩, ⟨by constructor <;> decide, by decide⟩,
   ⟨by constructor <;> decide, by decide⟩⟩

theorem witness_PcLeavesMemoryOnlyFromTheLastCell :
    SafeState (small 10 999 0 [] [(999, 12)]) ∧ (small 10 999 0 [] [(999, 12)]).pc.toNat ≤ 999 ∧
    control (small 10 999 0 [] [(999, 12)]) = some (1000, 1, .running, none) :=
  ⟨by constructor <;> decide, by decide, by decide⟩

theorem witness_NoOpAndDecrementIdioms :
    (AboutToRun (.addImmediate 1 0) (atLastCell 310) ∧ (readReg (atLastCell 310) 1).toNat ≤ 999 ∧ 0 + 1 < 10000) ∧
    (AboutToRun (.move 1 1) (atLastCell 511) ∧ (readReg (atLastCell 511) 1).toNat ≤ 999) ∧
    (AboutToRun (.addRegs 0 2) (atLastCell 602) ∧ (readReg (atLastCell 602) 0).toNat = 0 ∧
      (readReg (atLastCell 602) 2).toNat = 999) :=
  ⟨⟨⟨rfl, by decide, by decide⟩, by decide, by decide⟩, ⟨⟨rfl, by decide, by decide⟩, by decide⟩,
   ⟨⟨rfl, by decide, by decide⟩, by decide, by decide⟩⟩

theorem witness_SelfJumpRunsIntoTheCeiling :
    AboutToRun (.jumpIfNonzero 2 1) (atLastCell 21) ∧ (readReg (atLastCell 21) 1).toNat ≠ 0 ∧
    readReg (atLastCell 21) 2 = (atLastCell 21).pc ∧ (atLastCell 21).ic < (atLastCell 21).config.insnLimit ∧
    (atLastCell 21).config.insnLimit ≤ (atLastCell 21).ic + 10000 :=
  ⟨⟨rfl, by decide, by decide⟩, by decide, by decide, by decide, by decide⟩

theorem witness_PowerOnWithAnyDrawMeetsTheInvariant :
    1 ≤ (Config.mk 1).insnLimit ∧ (∀ i : RegIndex, ((Vector.replicate 10 999 : Vector Word 10)[i]).toNat ≤ 999) ∧
    Memory.inRange [(0, 1), (999, 999)] ∧ Memory.wf [(0, 1), (999, 999)] := by decide

theorem checkWords_zeros (k i : Nat) (h : i + k = 1001) :
    checkWords i (List.replicate k 0) = if k = 0 then none else some .capacityError := by
  induction k generalizing i with
  | zero => rfl
  | succ k ih =>
    rw [List.replicate_succ, checkWords_cons]
    by_cases hi : 1000 ≤ i
    · simp [hi]
    · rw [if_neg hi, if_pos (by decide), ih (i + 1) (by omega), if_neg (by omega), if_neg (by omega)]

theorem load_of_1001_zeros :
    load (List.replicate 1001 0) State.reset = .next (State.reset, .err .capacityError) :=
  load_err (by decide) ((checkWords_zeros 1001 0 rfl).trans (if_neg (by decide)))

/-- For LoadKeepsTheInvariant, FailedLoadChangesNothing, FirstOffendingWordDecidesTheLoadError and the LOAD clause of
ConfigurationIsNeverWritten: a LOAD that succeeds and one of each error. -/
theorem witness_LoadKeepsTheInvariant :
    SafeState State.reset ∧ State.reset.fsm ≠ .running ∧ load [201, 101] State.reset = .next (loadedP1, .ok) ∧
    load [1000] State.reset = .next (State.reset, .err .formatError) ∧
    load (List.replicate 1001 0) State.reset = .next (State.reset, .err .capacityError) :=
  ⟨by constructor <;> decide, by decide, rfl, rfl, load_of_1001_zeros⟩

theorem witness_RunKeepsTheInvariant : SafeState loadedP1 ∧ (runResult loadedP1).isSome = true :=
  ⟨by constructor <;> decide, by decide⟩

/-- For EveryCellStaysInRange and ReachableFaults: a reachable state, a LOAD that succeeds, and a store that changes a cell. -/
theorem witness_EveryCellStaysInRange :
    Reachable State.reset ∧ load [0, 999] State.reset = .next (loadedState [0, 999] State.reset, .ok) ∧
    ((nextState (exec (.storeIndirect 1 2) (atLastCell 912))).map fun t => readMem t 999) = some 7 ∧
    readMem (atLastCell 912) 999 = 912 :=
  ⟨.powerOn _ _ _ (by decide) (by decide) (by decide) (by decide), rfl, by decide, by decide⟩

theorem witness_ConfigurationIsNeverWritten :
    (nextState (exec (.halt 0 0) State.reset)).isSome = true ∧ (nextState (step (atLastCell 0))).isSome = true ∧
    (loadReply [] State.reset).isSome = true ∧ (runResult loadedP1).isSome = true := by decide

theorem witness_LoadInstallsTheProgram :
    State.reset.fsm ≠ .running ∧ (List.replicate 1000 (999 : Int)).length ≤ 1000 ∧
    ∀ w ∈ List.replicate 1000 (999 : Int), 0 ≤ w ∧ w ≤ 999 :=
  ⟨by decide, Nat.le_of_eq List.length_replicate, fun w h => by rw [(List.mem_replicate.mp h).2]; decide⟩

theorem witness_LoadIsolatesPrograms :
    State.reset.config = (State.powerOn ⟨10000⟩ (Vector.replicate 10 999) [(0, 999)]).config ∧
    (State.powerOn ⟨10000⟩ (Vector.replicate 10 999) [(0, 999)]).fsm ≠ .running ∧
    load [201, 101] State.reset = .next (loadedP1, .ok) :=
  ⟨rfl, by decide, rfl⟩

theorem witness_CommandsOutOfTurnAreRefused : (enterHalted State.reset).fsm ≠ .ready ∧ (atLastCell 0).fsm = .running := by
  decide

theorem witness_RunAlwaysEnds : loadedP1.fsm = .ready := by decide

theorem witness_RunReturnsTheInstructionCount : SafeState loadedP1 ∧ runResult loadedP1 = some (.ok 2) :=
  ⟨by constructor <;> decide, by decide⟩

/-- A power-on draw whose RUN jumps to 999 and runs off the end of memory. -/
def runsOff : State := State.powerOn ⟨10⟩ #v[0, 999, 1, 0, 0, 0, 0, 0, 0, 0] [(0, 12)]

/-- Both faults that a RUN can return. -/
theorem witness_RunReturnsTheFault :
    (SafeState runsOff ∧ runResult runsOff = some (.err .addressError)) ∧
    (SafeState (State.powerOn ⟨1⟩ (Vector.replicate 10 0) []) ∧
      runResult (State.powerOn ⟨1⟩ (Vector.replicate 10 0) []) = some (.err .limitExceededError)) :=
  ⟨⟨by constructor <;> decide, by decide⟩, ⟨by constructor <;> decide, by decide⟩⟩

end Sys2Proof.Tests
end

section
/-!
PROOFS. The statements of spec/10_state.md: what an execute phase and a step write, read and leave unchanged, where a step
leaves pc and ic, and that a step keeps the invariant. First the facts about the decoder, the execute phase, the step and
RUN's loop that these proofs share.
-/

namespace Sys2Proof.Machine

/-! ## Decoding a word in 0..999 -/

/-- The decoder's opcode is the word's hundreds field (R61). -/
theorem opcode_decode (w : Word) : (decode w).opcode = w.toNat / 100 :=
  (instrOf_fields (opField_le w) (dField w) (nField w)).1

/-- OpcodeError does not arise from a word in 0..999 (R67). -/
theorem decode_ne_noInstruction {w : Word} (hw : w.toNat ≤ 999) (d n : Digit) : decode w ≠ .noInstruction d n := by
  intro h
  have hop : w.toNat / 100 = 10 := by rw [← opcode_decode, h]; rfl
  omega

/-! ## Counting an instruction changes no operand -/

@[simp] theorem indirectAddress_countInstruction (s : State) (n : RegIndex) :
    indirectAddress (countInstruction s) n = indirectAddress s n := rfl

/-! ## The instructions that write a register -/

/-- An instruction with a register result runs by writing it and advancing pc (R85). -/
theorem exec_of_regResult {i : Instr} {s : State} {d : RegIndex} {v : Word} (h : regResult i s = some (d, v)) :
    exec i s = .next (writeRegAndAdvance s d v) := by
  cases i with
  | jumpIfNonzero | halt | storeIndirect | noInstruction => cases h
  | loadImmediate | addImmediate | mulImmediate | move | addRegs | mulRegs => cases h; rfl
  | loadIndirect d n =>
    have hn := regResult_load_in_range h
    simp only [regResult, if_pos hn] at h
    cases h
    exact exec_load_in_range hn

/-- The register with a result is the one of R22's column of writes. -/
theorem regsWritten_of_regResult {i : Instr} {s : State} {d : RegIndex} {v : Word} (h : regResult i s = some (d, v)) :
    regsWritten i = [d] := by
  cases i with
  | jumpIfNonzero | halt | storeIndirect | noInstruction => cases h
  | loadImmediate | addImmediate | mulImmediate | move | addRegs | mulRegs => cases h; rfl
  | loadIndirect d n =>
    simp only [regResult, if_pos (regResult_load_in_range h)] at h
    cases h
    rfl

/-- The result depends on the registers of R22's column of reads and, for a load, on the loaded cell alone. -/
theorem regResult_congr {i : Instr} {s s' : State} (hregs : ∀ j ∈ regsRead i, readReg s j = readReg s' j)
    (hcell : ∀ d n, i = .loadIndirect d n → readMem s (readReg s n).toNat = readMem s' (readReg s n).toNat) :
    regResult i s = regResult i s' := by
  cases i with
  | jumpIfNonzero | halt | loadImmediate | storeIndirect | noInstruction => rfl
  | addImmediate d n | mulImmediate d n => simp [regResult, hregs d (by simp [regsRead])]
  | move d n => simp [regResult, hregs n (by simp [regsRead])]
  | addRegs d n | mulRegs d n =>
    simp [regResult, hregs d (by simp [regsRead]), hregs n (by simp [regsRead])]
  | loadIndirect d n =>
    have hn : readReg s n = readReg s' n := hregs n (by simp [regsRead])
    have hloaded := hcell d n rfl
    rw [hn] at hloaded
    simp only [regResult, hn, hloaded]

/-- Writing a register and advancing pc touches no other register, no cell and no control state but pc. -/
theorem writeRegAndAdvance_frame (s : State) (d : RegIndex) (v : Word) :
    SameRegsExcept d s (writeRegAndAdvance s d v) ∧ SameMem s (writeRegAndAdvance s d v) ∧
      SameControl s (writeRegAndAdvance s d v) :=
  ⟨fun j hj => by rw [readReg_writeRegAndAdvance, if_neg hj], fun _ => rfl, rfl, rfl, rfl, rfl⟩

theorem exec_frame_of_regResult {i : Instr} {s t : State} {d : RegIndex} {v : Word} (hr : regResult i s = some (d, v))
    (h : exec i s = .next t) : SameRegsExcept d s t ∧ SameMem s t ∧ SameControl s t := by
  rw [exec_of_regResult hr] at h
  cases h
  exact writeRegAndAdvance_frame s d v

/-- Settles O16: each of the seven forms has a register result, so it writes x[d], advances pc and does nothing else. -/
theorem registerWritersFrame : Obligations.RegisterWritersFrame := by
  unfold Obligations.RegisterWritersFrame
  intro d n s t h
  obtain ⟨i, v, hr, hexec⟩ : ∃ i v, regResult i s = some (d, v) ∧ exec i s = .next t := by
    rcases h with (h | h | h | h | h | h) | ⟨hn, h⟩
    case inr => exact ⟨.loadIndirect d n, _, if_pos hn, h⟩
    all_goals exact ⟨_, _, rfl, h⟩
  exact exec_frame_of_regResult hr hexec

/-- Settles O21: a store whose address is a writes cell a and advances pc. -/
theorem storeFrame : Obligations.StoreFrame := by
  unfold Obligations.StoreFrame
  intro d n s t a ha h
  obtain ⟨rfl, hn⟩ := indirectAddress_eq_some.mp ha
  rw [exec_store_in_range hn] at h
  cases h
  exact ⟨fun b hb => readMem_writeMem_ne s _ hb, fun _ => rfl, rfl, rfl, rfl, rfl⟩

/-! ## What every execute phase leaves unchanged -/

namespace ExecEffect

variable {i : Instr} {s u : State}

theorem config_eq (e : ExecEffect i s u) : u.config = s.config := by
  cases e <;> rfl

theorem ic_eq (e : ExecEffect i s u) : u.ic = s.ic := by
  cases e <;> rfl

/-- A register outside R22's column of writes keeps its value. -/
theorem readReg_eq (e : ExecEffect i s u) {j : RegIndex} (hj : j ∉ regsWritten i) : readReg u j = readReg s j := by
  cases e with
  | jumps | fallsThrough | halts | stores | badAddress | badOpcode => rfl
  | writesReg d v hr =>
    rw [regsWritten_of_regResult hr, List.mem_singleton] at hj
    rw [readReg_writeRegAndAdvance, if_neg hj]

/-- A cell keeps its value unless it stands at the effective address of a store-indirect (R44). -/
theorem readMem_eq (e : ExecEffect i s u) {a : Nat}
    (ha : ∀ d n, i = .storeIndirect d n → indirectAddress s n ≠ some a) : readMem u a = readMem s a := by
  cases e with
  | jumps | fallsThrough | halts | writesReg | badAddress | badOpcode => rfl
  | stores d n hi hn =>
    have hne : a ≠ (readReg s n).toNat := by
      rintro rfl
      exact ha d n hi (indirectAddress_of_le hn)
    exact readMem_writeMem_ne s _ hne

end ExecEffect

/-! ## The step of a state about to run an instruction -/

/-- The step of a state about to run `i` is an execute phase of `i` in the counted state, then the limit check. -/
theorem step_effect {i : Instr} {s t : State} (hi : AboutToRun i s) (h : step s = .next t) :
    ∃ u, ExecEffect i (countInstruction s) u ∧ t = limitCheck u := by
  obtain ⟨-, hpc, hdec⟩ := hi
  obtain ⟨-, ⟨hout, -⟩ | ⟨-, hexec⟩⟩ := step_cases h
  · omega
  · rwa [hdec] at hexec

/-- Settles O26: the counted state has ic + 1, and neither the execute phase nor the limit check writes ic. -/
theorem everyFetchedInstructionIsCounted : Obligations.EveryFetchedInstructionIsCounted := by
  unfold Obligations.EveryFetchedInstructionIsCounted
  intro s hf
  obtain ⟨t, ht⟩ := step_answers hf
  refine ⟨t, ht, ?_⟩
  obtain ⟨-, ⟨hout, rfl⟩ | ⟨hpc, u, e, rfl⟩⟩ := step_cases ht
  · rw [if_neg (by omega), raise_ic]
  · rw [if_pos hpc, limitCheck_ic, e.ic_eq, countInstruction_ic]

/-- Settles O27, by the ways an execute phase ends: the limit check after it leaves pc alone. -/
theorem stepUpdatesPc : Obligations.StepUpdatesPc := by
  unfold Obligations.StepUpdatesPc
  intro i s t hi h
  have hadv := pc_succ_toNat hi.2.1
  obtain ⟨u, e, rfl⟩ := step_effect hi h
  cases e with
  | jumps d n hj hn =>
    rw [readReg_countInstruction] at hn
    simp [hj, if_pos hn]
  | fallsThrough d n hj hn =>
    rw [readReg_countInstruction] at hn
    simpa [hj, hn] using hadv
  | halts d n hj => simp [hj]
  | writesReg d v hr =>
    cases i with
    | jumpIfNonzero | halt | storeIndirect | noInstruction => cases hr
    | loadImmediate | addImmediate | mulImmediate | move | addRegs | mulRegs => simpa using hadv
    | loadIndirect d n =>
      have hn : (readReg s n).toNat ≤ 999 := regResult_load_in_range hr
      simpa [hn] using hadv
  | stores d n hj hn =>
    rw [readReg_countInstruction] at hn
    simpa [hj, hn] using hadv
  | badAddress d n hj hn =>
    have hn' : ¬ (readReg s n).toNat ≤ 999 := Nat.not_le.mpr hn
    rcases hj with rfl | rfl <;> simp [hn']
  | badOpcode d n hj => simp [hj]

/-- Settles O29: what the execute phase does not write, the count and the limit check do not either. -/
theorem stepWritesOnlyWhatItsOpcodeWrites : Obligations.StepWritesOnlyWhatItsOpcodeWrites := by
  unfold Obligations.StepWritesOnlyWhatItsOpcodeWrites
  intro i s t hi h
  obtain ⟨u, e, rfl⟩ := step_effect hi h
  constructor
  · intro j hchanged
    refine Classical.byContradiction fun hj => hchanged ?_
    rw [readReg_limitCheck, e.readReg_eq hj, readReg_countInstruction]
  · intro a hchanged
    refine Classical.byContradiction fun hnone => hchanged ?_
    rw [readMem_limitCheck, e.readMem_eq, readMem_countInstruction]
    exact fun d n hstore ha => hnone ⟨d, n, hstore, ha⟩

/-! ## What an execute phase reads -/

theorem exec_address_out_of_range {i : Instr} {d n : Digit} {s : State}
    (hi : i = .loadIndirect d n ∨ i = .storeIndirect d n) (hn : 999 < (readReg s n).toNat) :
    exec i s = .next (raise .addressError s) := by
  rcases hi with rfl | rfl
  · exact exec_load_out_of_range hn
  · exact exec_store_out_of_range hn

/-- An execute phase that advances pc wrote the register of R22's column of writes, if there is one. -/
theorem ExecEffect.regResult_of_advanced {i : Instr} {s t : State} (e : ExecEffect i s t) {j : RegIndex}
    (hj : j ∈ regsWritten i) (hpc : t.pc = s.pc + 1) : ∃ v, regResult i s = some (j, v) := by
  cases e with
  | jumps d n hi | fallsThrough d n hi | halts d n hi | stores d n hi | badOpcode d n hi => subst hi; cases hj
  | writesReg d v hr =>
    rw [regsWritten_of_regResult hr, List.mem_singleton] at hj
    exact ⟨v, hj ▸ hr⟩
  | badAddress =>
    have : s.pc = s.pc + 1 := hpc
    bv_omega

section TwoStates

variable {i : Instr} {s s' t t' : State} (hregs : ∀ j ∈ regsRead i, readReg s j = readReg s' j)
  (hcell : ∀ d n, i = .loadIndirect d n → readMem s (readReg s n).toNat = readMem s' (readReg s n).toNat)
  (ht : exec i s = .next t) (ht' : exec i s' = .next t')

include hregs ht ht'

include hcell in
/-- Both states get the same written register. -/
theorem exec_writtenReg_congr {j : RegIndex} (hj : j ∈ regsWritten i) (hpc : t.pc = s.pc + 1) :
    readReg t j = readReg t' j := by
  obtain ⟨v, hr⟩ := (exec_effect ht).regResult_of_advanced hj hpc
  have hr' : regResult i s' = some (j, v) := regResult_congr hregs hcell ▸ hr
  rw [exec_of_regResult hr] at ht
  rw [exec_of_regResult hr'] at ht'
  cases ht
  cases ht'
  simp

/-- Both states get the same stored cell. -/
theorem exec_storedCell_congr {d n : Digit} {a : Nat} (hi : i = .storeIndirect d n)
    (ha : indirectAddress s n = some a) : readMem t a = readMem t' a := by
  subst hi
  have hd : readReg s d = readReg s' d := hregs d (by simp [regsRead])
  have hn : readReg s n = readReg s' n := hregs n (by simp [regsRead])
  obtain ⟨rfl, hle⟩ := indirectAddress_eq_some.mp ha
  rw [exec_store_in_range hle] at ht
  rw [exec_store_in_range (hn ▸ hle)] at ht'
  cases ht
  cases ht'
  simp [hd, hn]

include hcell in
/-- Both states get the same pc, fsm and fault, if they had the same before. -/
theorem exec_control_congr (hpc : s.pc = s'.pc) (hfsm : s.fsm = s'.fsm) (hfault : s.fault = s'.fault) :
    t.pc = t'.pc ∧ t.fsm = t'.fsm ∧ t.fault = t'.fault := by
  cases exec_effect ht with
  | jumps d n hi hn =>
    subst hi
    rw [hregs n (by simp [regsRead])] at hn
    rw [exec_jump_taken hn] at ht'
    cases ht'
    exact ⟨hregs d (by simp [regsRead]), hfsm, hfault⟩
  | fallsThrough d n hi hn =>
    subst hi
    rw [hregs n (by simp [regsRead])] at hn
    rw [exec_jump_not_taken hn] at ht'
    cases ht'
    simp [hpc, hfsm, hfault]
  | halts d n hi =>
    subst hi
    cases ht'
    exact ⟨hpc, rfl, hfault⟩
  | writesReg d v hr =>
    rw [exec_of_regResult (regResult_congr hregs hcell ▸ hr)] at ht'
    cases ht'
    simp [hpc, hfsm, hfault]
  | stores d n hi hn =>
    subst hi
    rw [hregs n (by simp [regsRead])] at hn
    rw [exec_store_in_range hn] at ht'
    cases ht'
    simp [hpc, hfsm, hfault]
  | badAddress d n hi hn =>
    have hmem : n ∈ regsRead i := by rcases hi with rfl | rfl <;> simp [regsRead]
    rw [hregs n hmem] at hn
    rw [exec_address_out_of_range hi hn] at ht'
    cases ht'
    exact ⟨hpc, rfl, rfl⟩
  | badOpcode d n hi =>
    subst hi
    cases ht'
    exact ⟨hpc, rfl, rfl⟩

end TwoStates

/-- Settles O30: the written register, the stored cell and the control state, each from the operands alone. -/
theorem instructionReadsOnlyItsOperands : Obligations.InstructionReadsOnlyItsOperands := by
  unfold Obligations.InstructionReadsOnlyItsOperands
  intro i s s' t t' hregs hcell hpc hfsm hfault ht ht'
  exact ⟨fun _ hj hadv => exec_writtenReg_congr hregs hcell ht ht' hj hadv,
    fun _ _ _ hi ha => exec_storedCell_congr hregs ht ht' hi ha,
    exec_control_congr hregs hcell ht ht' hpc hfsm hfault⟩

/-! ## The configuration -/

theorem step_config {s t : State} (h : step s = .next t) : t.config = s.config := by
  obtain ⟨-, ⟨-, rfl⟩ | ⟨-, u, e, rfl⟩⟩ := step_cases h
  · rfl
  · rw [limitCheck_config, e.config_eq, countInstruction_config]

/-- What every step keeps, RUN's loop keeps. -/
theorem runLoop_keeps {P : State → Prop} (hstep : ∀ s t, P s → step s = .next t → P t) {fuel : Nat} {s t : State}
    (hs : P s) (h : runLoop fuel s = .next t) : P t := by
  induction fuel generalizing s with
  | zero => cases h; exact hs
  | succ k ih =>
    by_cases hf : s.fsm = .running
    · obtain ⟨u, hu⟩ := step_answers hf
      rw [runLoop_step hu] at h
      exact ih (hstep s u hs hu) h
    · rw [runLoop_stopped hf] at h
      cases h
      exact hs

/-- Settles O47: no update of the state writes the configuration, so no step does, and RUN is steps. -/
theorem configurationIsNeverWritten : Obligations.ConfigurationIsNeverWritten := by
  unfold Obligations.ConfigurationIsNeverWritten
  refine ⟨fun i s t h => (exec_effect h).config_eq, fun s t h => step_config h, fun words s t r h => ?_,
    fun s t r h => ?_⟩
  · obtain ⟨-, ⟨e, -, rfl, -⟩ | ⟨-, rfl, -⟩⟩ := load_cases h <;> rfl
  · obtain ⟨-, hloop, -⟩ := run_cases h
    have hkeeps : ∀ u v : State, u.config = s.config → step u = .next v → v.config = s.config :=
      fun u v hu huv => (step_config huv).trans hu
    exact runLoop_keeps (P := fun u => u.config = s.config) hkeeps (startRun_config s) hloop

/-! ## A step keeps the invariant -/

/-- The part of the invariant that speaks of values: registers, cells and pc in their ranges, memory in its canonical
form. An execute phase keeps it whatever the controller does. -/
structure ValuesInRange (s : State) : Prop where
  regs : ∀ i : RegIndex, (readReg s i).toNat ≤ 999
  cells : s.mem.inRange
  memForm : s.mem.wf
  pcRange : s.pc.toNat ≤ 1000

theorem SafeState.valuesInRange {s : State} (h : SafeState s) : ValuesInRange s :=
  ⟨h.regs, h.cells, h.memForm, h.pcRange⟩

/-- In Running no fault is recorded (R28). -/
theorem SafeState.fault_none {s : State} (h : SafeState s) (hf : s.fsm = .running) : s.fault = none := by
  cases hk : s.fault with
  | none => rfl
  | some k =>
    have hfaulted : s.fsm = .faulted := h.faultStatus.mp (by rw [hk]; rfl)
    rw [hf] at hfaulted
    cases hfaulted

/-- Every cell of a safe state holds one of the ten instructions (R67, R171). -/
theorem SafeState.decode_ne_noInstruction {s : State} (h : SafeState s) (a : Nat) (d n : Digit) :
    decode (readMem s a) ≠ .noInstruction d n :=
  Machine.decode_ne_noInstruction (read_inRange h.cells a) d n

/-- An execute phase keeps the values in range: what it writes is an in-range result, register or advance of pc (R22, R55). -/
theorem ExecEffect.valuesInRange {i : Instr} {s u : State} (e : ExecEffect i s u) (hs : ValuesInRange s)
    (hpc : s.pc.toNat ≤ 999) : ValuesInRange u := by
  obtain ⟨hregs, hcells, hform, hrange⟩ := hs
  have hadv : (s.pc + 1).toNat ≤ 1000 := by rw [pc_succ_toNat hpc]; omega
  cases e with
  | jumps d n => exact ⟨hregs, hcells, hform, Nat.le_succ_of_le (hregs d)⟩
  | fallsThrough => exact ⟨hregs, hcells, hform, hadv⟩
  | halts | badAddress | badOpcode => exact ⟨hregs, hcells, hform, hrange⟩
  | writesReg d v hr =>
    refine ⟨fun j => ?_, hcells, hform, hadv⟩
    rw [readReg_writeRegAndAdvance]
    split
    · exact regResult_le hregs hcells hr
    · exact hregs j
  | stores d n _ hn => exact ⟨hregs, write_inRange hcells hn (hregs d), write_wf hform _ _, hadv⟩

/-- With every register in range and one of the ten instructions, the execute phase raises no fault: it leaves fsm alone or
halts. -/
theorem ExecEffect.no_fault {i : Instr} {s u : State} (e : ExecEffect i s u)
    (hregs : ∀ j : RegIndex, (readReg s j).toNat ≤ 999) (hi : ∀ d n, i ≠ .noInstruction d n) :
    u.fault = s.fault ∧ (u.fsm = s.fsm ∨ u.fsm = .halted) := by
  cases e with
  | jumps | fallsThrough | writesReg | stores => exact ⟨rfl, .inl rfl⟩
  | halts => exact ⟨rfl, .inr rfl⟩
  | badAddress d n _ hn => exact absurd (hregs n) (Nat.not_le.mpr hn)
  | badOpcode d n hj => exact absurd hj (hi d n)

/-- A fetch at pc 1000 leaves a safe state (R81, R172). -/
theorem safeState_raise_addressError {s : State} (h : SafeState s) (hpc : 999 < s.pc.toNat) :
    SafeState (raise .addressError s) where
  regs := h.regs
  cells := h.cells
  memForm := h.memForm
  pcRange := h.pcRange
  limitPositive := h.limitPositive
  icBound := h.icBound
  icRunning := nofun
  readyZero := nofun
  faultStatus := by simp
  noOpcodeError := by simp
  addressErrorAt := fun _ => Nat.le_antisymm h.pcRange hpc
  limitErrorAt := by simp

/-- The limit check makes a safe state of what a fault-free execute phase leaves: below the ceiling there is room for one
more instruction, and at it the LimitExceededError stands at ic = INSN_LIMIT (R88, R173). -/
theorem safeState_limitCheck {u : State} (hv : ValuesInRange u) (hpos : 1 ≤ u.config.insnLimit)
    (hic : u.ic ≤ u.config.insnLimit) (hfault : u.fault = none) (hfsm : u.fsm = .running ∨ u.fsm = .halted) :
    SafeState (limitCheck u) := by
  obtain ⟨hregs, hcells, hform, hrange⟩ := hv
  obtain ⟨heq, hroom⟩ | ⟨heq, -, hceil⟩ := limitCheck_cases u
  · rw [heq]
    exact {
      regs := hregs, cells := hcells, memForm := hform, pcRange := hrange, limitPositive := hpos, icBound := hic
      icRunning := hroom
      readyZero := by rcases hfsm with h | h <;> simp [h]
      faultStatus := by rcases hfsm with h | h <;> simp [h, hfault]
      noOpcodeError := by simp [hfault]
      addressErrorAt := by simp [hfault]
      limitErrorAt := by simp [hfault] }
  · rw [heq]
    exact {
      regs := hregs, cells := hcells, memForm := hform, pcRange := hrange, limitPositive := hpos, icBound := hic
      icRunning := nofun
      readyZero := nofun
      faultStatus := by simp
      noOpcodeError := by simp
      addressErrorAt := by simp
      limitErrorAt := fun _ => Nat.le_antisymm hic hceil }

/-- Settles O42: a failed fetch is at pc 1000; after a fetch the execute phase keeps the values and raises no fault, and the
limit check restores the rest. -/
theorem stepKeepsTheInvariant : Obligations.StepKeepsTheInvariant := by
  unfold Obligations.StepKeepsTheInvariant
  intro s t hs h
  obtain ⟨hf, ⟨hout, rfl⟩ | ⟨hpc, u, e, rfl⟩⟩ := step_cases h
  · exact safeState_raise_addressError hs hout
  · have hroom : s.ic < s.config.insnLimit := hs.icRunning hf
    have hvalues : ValuesInRange (countInstruction s) := ⟨hs.regs, hs.cells, hs.memForm, hs.pcRange⟩
    obtain ⟨hfault, hfsm⟩ := e.no_fault hvalues.regs (hs.decode_ne_noInstruction _)
    rw [countInstruction_fault, hs.fault_none hf] at hfault
    rw [countInstruction_fsm, hf] at hfsm
    refine safeState_limitCheck (e.valuesInRange hvalues hpc) ?_ ?_ hfault hfsm
    · rw [e.config_eq]; exact hs.limitPositive
    · rw [e.config_eq, e.ic_eq]; exact hroom

end Sys2Proof.Machine
end

section
/-!
PROOFS. The statements of spec/20_memory.md: a read gives the most recent write, the canonical form is unique, a store is
seen by every later fetch, and every cell of a reachable state is in 0..999. First the facts about a canonical memory's
cells, about the step of a store-indirect, and that every reachable state meets the invariant.
-/

namespace Sys2Proof.Machine

/-! ## A sequence of writes -/

/-- Settles O22, by induction on the writes with the last one first: either it is the most recent write to the address, or
the read sees past it. -/
theorem readGivesTheMostRecentWrite : Obligations.ReadGivesTheMostRecentWrite := by
  unfold Obligations.ReadGivesTheMostRecentWrite
  intro writes m a
  obtain ⟨lastFirst, rfl⟩ : ∃ l, writes = l.reverse := ⟨writes.reverse, writes.reverse_reverse.symm⟩
  rw [List.reverse_reverse, List.foldl_reverse]
  induction lastFirst with
  | nil => rfl
  | cons last earlier ih =>
    rw [List.foldr_cons, read_write]
    by_cases h : last.1 = a
    · rw [if_pos h.symm, List.find?_cons_of_pos (by simpa only [decide_eq_true_eq] using h)]
    · rw [if_neg (Ne.symm h), ih, List.find?_cons_of_neg (by simpa only [decide_eq_true_eq] using h)]

/-! ## The cells that a canonical memory lists -/

/-- An address that does not read as an unlisted one is listed, at the word it reads as. -/
theorem mem_of_read_ne_unlisted {m : Memory} {a : Nat} (h : Memory.read m a ≠ unlistedWord) :
    (a, Memory.read m a) ∈ m := by
  induction m with
  | nil => exact absurd rfl h
  | cons c m ih =>
    rw [read_cons] at h ⊢
    by_cases hc : c.1 = a
    · rw [if_pos hc, ← hc]
      exact List.mem_cons_self
    · rw [if_neg hc] at h ⊢
      exact List.mem_cons_of_mem c (ih h)

/-- Where addresses strictly rise, no listing hides another: a listed cell's address reads as its word. -/
theorem read_of_mem {m : Memory} (hm : m.Pairwise (fun c c' => c.1 < c'.1)) {c : MemCell} (hc : c ∈ m) :
    Memory.read m c.1 = c.2 := by
  induction hm with
  | nil => cases hc
  | cons hhead _ ih =>
    rw [read_cons]
    rcases List.mem_cons.mp hc with rfl | hc
    · exact if_pos rfl
    · rw [if_neg (Nat.ne_of_lt (hhead c hc)), ih hc]

/-- A canonical memory lists exactly the words that differ from what an unlisted address reads as. -/
theorem mem_iff_read {m : Memory} (hm : m.wf) (c : MemCell) :
    c ∈ m ↔ Memory.read m c.1 = c.2 ∧ c.2 ≠ unlistedWord := by
  constructor
  · exact fun hc => ⟨read_of_mem hm.1 hc, hm.2 c hc⟩
  · rintro ⟨hread, hne⟩
    rw [← hread] at hne
    have hlisted := mem_of_read_ne_unlisted hne
    rwa [hread] at hlisted

/-- Where addresses strictly rise, no cell is listed twice. -/
theorem nodup_of_rising {m : Memory} (hm : m.Pairwise (fun c c' => c.1 < c'.1)) : m.Nodup :=
  hm.imp fun hlt heq => Nat.ne_of_lt hlt (congrArg Prod.fst heq)

/-- Settles O23: canonical memories that read alike list the same cells, so each is a permutation of the other, and only one
order of the cells is strictly rising. -/
theorem canonicalMemoriesThatReadAlikeAreEqual : Obligations.CanonicalMemoriesThatReadAlikeAreEqual := by
  unfold Obligations.CanonicalMemoriesThatReadAlikeAreEqual
  intro m m' hm hm' hread
  have hcells : ∀ c : MemCell, c ∈ m ↔ c ∈ m' := fun c => by
    rw [mem_iff_read hm, mem_iff_read hm', hread]
  have hperm : m.Perm m' :=
    (List.perm_ext_iff_of_nodup (nodup_of_rising hm.1) (nodup_of_rising hm'.1)).mpr hcells
  exact hperm.eq_of_pairwise (fun _ _ _ _ hlt hgt => absurd hgt (Nat.lt_asymm hlt)) hm.1 hm'.1

/-! ## The step of a store-indirect -/

/-- A store-indirect whose address is in range: the step counts, writes the one cell, advances pc and checks the limit. -/
theorem step_store_in_range {d n : Digit} {s : State} (hi : AboutToRun (.storeIndirect d n) s)
    (hn : (readReg s n).toNat ≤ 999) :
    step s = .next (limitCheck (advancePc (writeMem (countInstruction s) (readReg s n).toNat (readReg s d)))) := by
  obtain ⟨hf, hpc, hdec⟩ := hi
  refine step_of_exec hf hpc ?_
  rw [hdec]
  exact exec_store_in_range hn

/-- The stored word stands in its cell after the step (R151). -/
theorem readMem_step_store {d n : Digit} {s t : State} {a : Nat} (hi : AboutToRun (.storeIndirect d n) s)
    (ha : indirectAddress s n = some a) (h : step s = .next t) : readMem t a = readReg s d := by
  obtain ⟨rfl, hn⟩ := indirectAddress_eq_some.mp ha
  rw [step_store_in_range hi hn] at h
  cases h
  simp

/-- A step leaves every cell that no store-indirect addresses, also where its fetch fails (R44, R175). -/
theorem readMem_step_of_no_store {s t : State} {a : Nat} (h : step s = .next t)
    (ha : ∀ d n, AboutToRun (.storeIndirect d n) s → indirectAddress s n ≠ some a) : readMem t a = readMem s a := by
  obtain ⟨hf, ⟨-, rfl⟩ | ⟨hpc, u, e, rfl⟩⟩ := step_cases h
  · rfl
  · rw [readMem_limitCheck, e.readMem_eq fun d n hi => ha d n ⟨hf, hpc, hi⟩, readMem_countInstruction]

/-- Below the ceiling, a store to the address of the next instruction leaves the machine about to run the stored word. -/
theorem step_store_to_next_pc {d n : Digit} {s : State} (hi : AboutToRun (.storeIndirect d n) s)
    (hnext : (readReg s n).toNat = s.pc.toNat + 1) (hn : (readReg s n).toNat ≤ 999)
    (hroom : s.ic + 1 < s.config.insnLimit) :
    ∃ t, step s = .next t ∧ t.fsm = .running ∧ t.pc.toNat = (readReg s n).toNat ∧
      readMem t (readReg s n).toNat = readReg s d := by
  have hstep := step_store_in_range hi hn
  rw [limitCheck_pass fun _ => hroom] at hstep
  obtain ⟨hf, hpc, -⟩ := hi
  exact ⟨_, hstep, hf, (pc_succ_toNat hpc).trans hnext.symm, by simp⟩

/-- Settles O31: the fetch reads the cell, a step writes only a store's cell, and after a store to the next address pc is
that address. -/
theorem nextFetchSeesTheStore : Obligations.NextFetchSeesTheStore := by
  unfold Obligations.NextFetchSeesTheStore
  refine ⟨fun s hpc => fetch_of_le hpc, fun s t a h => ⟨fun d n hi ha => readMem_step_store hi ha h,
    readMem_step_of_no_store h⟩, fun d n s hi hnext hn hroom => ?_⟩
  obtain ⟨t, ht, hf, hpc, hcell⟩ := step_store_to_next_pc hi hnext hn hroom
  rw [← hpc] at hcell hn
  refine ⟨t, ht, ?_, hf, hn, ?_⟩
  · rw [fetch_of_le hn, hcell]
  · rw [hcell]

/-- Settles O32: a store whose address is pc is a store in range, so the step writes that one cell and advances pc. -/
theorem storeToItsOwnAddress : Obligations.StoreToItsOwnAddress := by
  unfold Obligations.StoreToItsOwnAddress
  intro d n s hi hown
  have hpc : s.pc.toNat ≤ 999 := hi.2.1
  have hstep := step_store_in_range hi (hown ▸ hpc)
  rw [hown] at hstep
  refine ⟨_, hstep, by simp, ?_, fun j => by simp, fun a ha => ?_⟩
  · rw [limitCheck_pc]
    exact pc_succ_toNat hpc
  · rw [readMem_limitCheck, readMem_advancePc, readMem_writeMem_ne _ _ ha, readMem_countInstruction]

/-! ## Every reachable state meets the invariant -/

/-- Power-on with any draw in range meets the invariant (R205). -/
theorem safeState_powerOn {c : Config} {x : Vector Word 10} {m : Memory} (hc : 1 ≤ c.insnLimit)
    (hx : ∀ i : RegIndex, (x[i]).toNat ≤ 999) (hr : m.inRange) (hw : m.wf) : SafeState (State.powerOn c x m) where
  regs := hx
  cells := hr
  memForm := hw
  pcRange := Nat.zero_le _
  limitPositive := hc
  icBound := Nat.zero_le _
  icRunning := nofun
  readyZero := fun _ => ⟨rfl, rfl⟩
  faultStatus := by simp
  noOpcodeError := nofun
  addressErrorAt := nofun
  limitErrorAt := nofun

/-- A LOAD whose checks pass is a power-on with every register 0 and the program as memory's draw (R200). -/
theorem safeState_loadedState {words : List Int} {s : State} (hc : 1 ≤ s.config.insnLimit)
    (hwords : checkWords 0 words = none) : SafeState (loadedState words s) := by
  obtain ⟨hlen, hrange⟩ := (checkWords_eq_none (Nat.zero_le _)).mp hwords
  exact safeState_powerOn hc (fun i => by simp)
    (writeWords_inRange words empty_inRange hlen hrange) (writeWords_wf words empty_wf 0)

/-- A LOAD keeps the invariant: it fails and changes nothing, or installs a loaded state (R200, R203). -/
theorem safeState_of_load {words : List Int} {s t : State} {r : LoadReply} (hs : SafeState s)
    (h : load words s = .next (t, r)) : SafeState t := by
  obtain ⟨-, ⟨-, -, rfl, -⟩ | ⟨hwords, rfl, -⟩⟩ := load_cases h
  · exact hs
  · exact safeState_loadedState hs.limitPositive hwords

/-- RUN's entry to Running keeps the invariant: Ready has ic 0, so there is room for one instruction (R90). -/
theorem safeState_startRun {s : State} (hs : SafeState s) (hready : s.fsm = .ready) : SafeState (startRun s) where
  regs := hs.regs
  cells := hs.cells
  memForm := hs.memForm
  pcRange := hs.pcRange
  limitPositive := hs.limitPositive
  icBound := hs.icBound
  icRunning := fun _ => by
    have hic : s.ic = 0 := (hs.readyZero hready).2
    have hpos := hs.limitPositive
    simp only [startRun_ic, startRun_config]
    omega
  readyZero := nofun
  faultStatus := by
    rw [startRun_fault, hs.faultStatus, hready]
    simp
  noOpcodeError := hs.noOpcodeError
  addressErrorAt := hs.addressErrorAt
  limitErrorAt := hs.limitErrorAt

/-- Every state the block can come to meets the invariant. -/
theorem Reachable.safeState {s : State} (h : Reachable s) : SafeState s := by
  induction h with
  | powerOn c x m hc hx hr hw => exact safeState_powerOn hc hx hr hw
  | load words s t r _ hload ih => exact safeState_of_load ih hload
  | startRun s _ hready ih => exact safeState_startRun ih hready
  | step s t _ hstep ih => exact stepKeepsTheInvariant s t ih hstep

/-- A LOAD that succeeds had only words in 0..999 (R201). -/
theorem load_ok_words {words : List Int} {s t : State} (h : load words s = .next (t, .ok)) :
    ∀ w ∈ words, 0 ≤ w ∧ w ≤ 999 := by
  obtain ⟨-, ⟨_, -, -, hr⟩ | ⟨hwords, -, -⟩⟩ := load_cases h
  · cases hr
  · exact ((checkWords_eq_none (Nat.zero_le _)).mp hwords).2

/-- A cell that a store-indirect changes holds the stored register's value (R22). -/
theorem exec_store_changed {d n : Digit} {s t : State} {a : Nat} (h : exec (.storeIndirect d n) s = .next t)
    (hchanged : readMem t a ≠ readMem s a) : readMem t a = readReg s d := by
  by_cases hn : (readReg s n).toNat ≤ 999
  · rw [exec_store_in_range hn] at h
    cases h
    rw [readMem_advancePc, readMem_writeMem] at hchanged ⊢
    by_cases ha : a = (readReg s n).toNat
    · exact if_pos ha
    · exact absurd (if_neg ha) hchanged
  · rw [exec_store_out_of_range (Nat.lt_of_not_le hn)] at h
    cases h
    exact absurd rfl hchanged

/-- Settles O45: a reachable state meets the invariant, whose first two parts are the ranges. -/
theorem everyCellStaysInRange : Obligations.EveryCellStaysInRange := by
  unfold Obligations.EveryCellStaysInRange
  exact ⟨fun s hs => ⟨read_inRange hs.safeState.cells, hs.safeState.regs⟩,
    fun words s t h => load_ok_words h, fun d n s t a h hchanged => exec_store_changed h hchanged⟩

end Sys2Proof.Machine
end

section
/-!
PROOFS. The statements of spec/30_encoding.md: decode and encode are inverse to each other, which words select which opcode,
that every word in 0..999 is a legal instruction, and the no-op and decrement idioms. First the facts about the decoder's
digits, about the word of a well-formed instruction, and about the step of an instruction that writes a register.
-/

namespace Sys2Proof.Machine

/-! ## The decoder's digits -/

theorem dDigit_decode (w : Word) : (decode w).dDigit = dField w :=
  (instrOf_fields (opField_le w) (dField w) (nField w)).2.1

theorem nDigit_decode (w : Word) : (decode w).nDigit = nField w :=
  (instrOf_fields (opField_le w) (dField w) (nField w)).2.2

/-- The hundreds of a word select its row of the opcode map (R65). -/
theorem decode_of_hundreds {w : Word} {op : Nat} (h : w.toNat / 100 = op) :
    decode w = instrOf op (dField w) (nField w) := by
  subst h
  rfl

/-- The words 1000..1023 are the row "no instruction" (R68). -/
theorem decode_eq_noInstruction_iff (w : Word) : (∃ d n, decode w = .noInstruction d n) ↔ 1000 ≤ w.toNat := by
  constructor
  · rintro ⟨d, n, h⟩
    exact Nat.le_of_not_lt fun hw => decode_ne_noInstruction (Nat.le_of_lt_succ hw) d n h
  · intro hw
    have hlt : w.toNat < 1024 := w.isLt
    exact ⟨_, _, decode_of_hundreds (op := 10) (by omega)⟩

/-- Settles O2: the decoded instruction keeps the three fields that the decoder computed. -/
theorem decoderSplitsDecimalDigits : Obligations.DecoderSplitsDecimalDigits := by
  unfold Obligations.DecoderSplitsDecimalDigits
  intro w
  rw [opcode_decode, dDigit_decode, nDigit_decode]
  exact ⟨rfl, dField_val w, nField_val w, fun hw => ⟨by omega, by omega, by omega⟩⟩

/-- Settles O5: opcode k is the quotient by 100, and a quotient of 10 is no instruction. -/
theorem opcodeSelectedByWordRange : Obligations.OpcodeSelectedByWordRange := by
  unfold Obligations.OpcodeSelectedByWordRange
  refine fun w => ⟨fun k _ => ?_, decode_eq_noInstruction_iff w⟩
  rw [opcode_decode]
  omega

/-! ## The word of a well-formed instruction -/

/-- An instruction is well-formed exactly when its decimal word fits in a 10-bit cell (R60, R68). -/
theorem wellFormed_iff (i : Instr) : i.WellFormed ↔ 100 * i.opcode + 10 * i.dDigit.val + i.nDigit.val < 1024 := by
  cases i with
  | noInstruction d n =>
    simp only [Instr.WellFormed, Instr.wellFormed, noInstructionDigitsFit, Instr.opcode, Instr.dDigit, Instr.nDigit,
      decide_eq_true_eq]
    omega
  | jumpIfNonzero d n | halt d n | loadImmediate d n | addImmediate d n | mulImmediate d n | move d n | addRegs d n
  | mulRegs d n | loadIndirect d n | storeIndirect d n =>
    refine iff_of_true rfl ?_
    simp only [Instr.opcode, Instr.dDigit, Instr.nDigit]
    omega

theorem encode_toNat {i : Instr} (h : i.WellFormed) :
    (encode i).toNat = 100 * i.opcode + 10 * i.dDigit.val + i.nDigit.val := by
  rw [encode_eq_wordOf]
  exact wordOf_toNat ((wellFormed_iff i).mp h)

theorem decode_encode {i : Instr} (h : i.WellFormed) : decode (encode i) = i := by
  have hword := encode_toNat h
  have hop : opField (encode i) = i.opcode := by
    rw [opField, hword]
    omega
  have hd : dField (encode i) = i.dDigit := by
    apply Fin.ext
    rw [dField_val, hword]
    omega
  have hn : nField (encode i) = i.nDigit := by
    apply Fin.ext
    rw [nField_val, hword]
    omega
  rw [decode, hop, hd, hn, instrOf_opcode_digits]

/-- The decoder splits a word into digits that make up the word again (R60). -/
theorem decimalWord_decode (w : Word) :
    100 * (decode w).opcode + 10 * (decode w).dDigit.val + (decode w).nDigit.val = w.toNat := by
  rw [opcode_decode, dDigit_decode, nDigit_decode, dField_val, nField_val]
  omega

theorem wellFormed_decode (w : Word) : (decode w).WellFormed := by
  rw [wellFormed_iff, decimalWord_decode]
  exact w.isLt

theorem encode_decode (w : Word) : encode (decode w) = w :=
  BitVec.eq_of_toNat_eq ((encode_toNat (wellFormed_decode w)).trans (decimalWord_decode w))

/-- Settles O3: the word of a well-formed instruction is its decimal word, whose three digits the decoder reads back. -/
theorem decodeOfEncode : Obligations.DecodeOfEncode := by
  unfold Obligations.DecodeOfEncode
  exact fun _ => decode_encode

/-- Settles O4: a word's digits make up the word again, and it fits in a cell. -/
theorem encodeOfDecode : Obligations.EncodeOfDecode := by
  unfold Obligations.EncodeOfDecode
  exact fun w => ⟨wellFormed_decode w, encode_decode w⟩

/-! ## Every word in 0..999 is legal -/

/-- Only a word that is no instruction raises OpcodeError (R171). -/
theorem ExecEffect.fault_ne_opcodeError {i : Instr} {s u : State} (e : ExecEffect i s u)
    (hi : ∀ d n, i ≠ .noInstruction d n) (hs : s.fault ≠ some .opcodeError) : u.fault ≠ some .opcodeError := by
  cases e with
  | jumps | fallsThrough | halts | writesReg | stores => exact hs
  | badAddress => simp
  | badOpcode d n h => exact absurd h (hi d n)

/-- A jump-if-nonzero answers, and pc is the target or one more (R100). -/
theorem exec_jump_pc (d n : Digit) {s : State} (hpc : s.pc.toNat ≤ 999) :
    ∃ t, exec (.jumpIfNonzero d n) s = .next t ∧
      t.pc.toNat = if (readReg s n).toNat ≠ 0 then (readReg s d).toNat else s.pc.toNat + 1 := by
  by_cases hn : (readReg s n).toNat = 0
  · exact ⟨_, exec_jump_not_taken hn, by rw [if_neg (not_not_intro hn), advancePc_pc, pc_succ_toNat hpc]⟩
  · exact ⟨_, exec_jump_taken hn, by rw [if_pos hn, jumpTo_pc]⟩

/-- Settles O6: the hundreds digit of a word in 0..999 selects one of the ten instructions, and halt's meaning has no use
for its digits. -/
theorem everyStoredWordIsLegal : Obligations.EveryStoredWordIsLegal := by
  unfold Obligations.EveryStoredWordIsLegal
  refine ⟨fun w hw => ⟨?_, decode_ne_noInstruction hw, fun s hs => ?_⟩, fun w hlo hhi => ?_, fun d n d' n' s => ?_, rfl,
    fun s hpc => exec_jump_pc 0 0 hpc⟩
  · rw [opcode_decode]
    omega
  · obtain ⟨t, ht, e⟩ := exec_cases (decode w) s
    exact ⟨t, ht, e.fault_ne_opcodeError (decode_ne_noInstruction hw) (by simp [hs])⟩
  · exact ⟨_, _, decode_of_hundreds (op := 1) (by omega)⟩
  · rw [exec_halt, exec_halt]

/-! ## The idioms -/

/-- The step of an instruction with a register result: count, write, advance pc, check the limit (R85, R88). -/
theorem step_of_regResult {i : Instr} {s : State} {d : RegIndex} {v : Word} (hi : AboutToRun i s)
    (hr : regResult i s = some (d, v)) : step s = .next (limitCheck (writeRegAndAdvance (countInstruction s) d v)) := by
  obtain ⟨hf, hpc, hdec⟩ := hi
  refine step_of_exec hf hpc ?_
  rw [hdec]
  exact exec_of_regResult ((regResult_countInstruction i s).trans hr)

/-- Below the ceiling, an instruction that writes a register's own value back only advances pc and counts. -/
theorem step_of_value_written_back {i : Instr} {s : State} {d : RegIndex} (hi : AboutToRun i s)
    (hr : regResult i s = some (d, readReg s d)) (hroom : s.ic + 1 < s.config.insnLimit) :
    ∃ t, step s = .next t ∧ SameRegs s t ∧ SameMem s t ∧ t.pc.toNat = s.pc.toNat + 1 ∧ t.ic = s.ic + 1 ∧
      t.fsm = .running ∧ t.fault = s.fault := by
  have hstep := step_of_regResult hi hr
  rw [limitCheck_pass fun _ => hroom] at hstep
  obtain ⟨hf, hpc, -⟩ := hi
  refine ⟨_, hstep, fun j => ?_, fun _ => rfl, pc_succ_toNat hpc, rfl, hf, rfl⟩
  rw [readReg_writeRegAndAdvance, readReg_countInstruction]
  split
  next hj => rw [hj]
  next => rfl

/-- Adding the immediate 0 leaves a value in 0..999 as it is (R127 (b)). -/
theorem add1000_immOperand_zero {v : Word} (hv : v.toNat ≤ 999) : add1000 v (immOperand 0) = v := by
  apply BitVec.eq_of_toNat_eq
  rw [add1000_toNat, immOperand_toNat]
  exact Nat.mod_eq_of_lt (by omega)

/-- Adding 999 subtracts 1 modulo 1000 (R71). -/
theorem add1000_999_toNat {v k : Word} (hv : v.toNat ≤ 999) (hk : k.toNat = 999) :
    (add1000 v k).toNat = if v.toNat = 0 then 999 else v.toNat - 1 := by
  rw [add1000_toNat, hk]
  split <;> omega

/-- Settles O38: `3d0` and `5dd` write x[d]'s own value back, and the sum with 999 is one less. -/
theorem noOpAndDecrementIdioms : Obligations.NoOpAndDecrementIdioms := by
  unfold Obligations.NoOpAndDecrementIdioms
  refine ⟨fun i d s hidiom hi hd hroom => ?_, fun d k s hi hd hk => ⟨_, step_of_regResult hi rfl, ?_⟩⟩
  · have hr : regResult i s = some (d, readReg s d) := by
      rcases hidiom with rfl | rfl
      · rw [regResult, add1000_immOperand_zero hd]
      · rfl
    exact step_of_value_written_back hi hr hroom
  · rw [readReg_limitCheck, readReg_writeRegAndAdvance_same, add1000_999_toNat hd hk]

end Sys2Proof.Machine
end

section
/-!
PROOFS. The statements of spec/40_execution_cycle.md: the step as fetch, execute phase and limit check, the transitions of
fsm, and RUN: it ends, it keeps the invariant, and what it returns. First the ways a step ends, with and without the
invariant, and the facts about RUN's loop and its reply.
-/

namespace Sys2Proof.Machine

/-! ## The step as execute phase and limit check -/

/-- The step of a state about to run `i` is the limit check of what the execute phase of `i` answers (R80). -/
theorem step_of_aboutToRun {i : Instr} {s t : State} (hi : AboutToRun i s) (h : exec i (countInstruction s) = .next t) :
    step s = .next (limitCheck t) := by
  obtain ⟨hf, hpc, rfl⟩ := hi
  exact step_of_exec hf hpc h

/-- Settles O24: every execute phase answers a next state. -/
theorem stepRunsTheDecodedInstruction : Obligations.StepRunsTheDecodedInstruction := by
  unfold Obligations.StepRunsTheDecodedInstruction
  intro i s hi
  obtain ⟨t, ht, -⟩ := exec_cases i (countInstruction s)
  exact ⟨t, ht, step_of_aboutToRun hi ht⟩

/-- Settles O28: the execute phase leaves ic + 1 and the same INSN_LIMIT for the check to compare. -/
theorem limitIsCheckedAfterTheExecutePhase : Obligations.LimitIsCheckedAfterTheExecutePhase := by
  unfold Obligations.LimitIsCheckedAfterTheExecutePhase
  intro i s t hi ht
  have hstep := step_of_aboutToRun hi ht
  have hic : t.ic = s.ic + 1 := (exec_effect ht).ic_eq
  have hcfg : t.config = s.config := (exec_effect ht).config_eq
  refine ⟨fun hf hceil => ?_, fun _ hroom => ?_, fun hf => ?_⟩
  · rw [limitCheck_fail hf (by rwa [hcfg, hic])] at hstep
    exact ⟨_, hstep, rfl, rfl, rfl, hic, hcfg, fun _ => rfl, fun _ => rfl⟩
  · rwa [limitCheck_pass fun _ => by rwa [hcfg, hic]] at hstep
  · rwa [limitCheck_pass fun h => absurd h hf] at hstep

/-- Settles O25: a failed fetch only raises, and the invariant bounds pc by 1000. -/
theorem fetchOutsideMemoryRaisesAddressError : Obligations.FetchOutsideMemoryRaisesAddressError := by
  unfold Obligations.FetchOutsideMemoryRaisesAddressError
  intro s hf hpc
  exact ⟨⟨_, step_of_pc_out hf hpc, rfl, rfl, rfl, rfl, rfl, fun _ => rfl, fun _ => rfl⟩,
    fun hs => Nat.le_antisymm hs.pcRange hpc⟩

/-- Settles O9: a word 1000..1023 is the encoding of its row, and the execute phase of that row only raises. -/
theorem noInstructionRaisesOpcodeError : Obligations.NoInstructionRaisesOpcodeError := by
  unfold Obligations.NoInstructionRaisesOpcodeError
  intro d n s
  refine ⟨fun hfit => ?_, _, exec_noInstruction d n s, rfl, rfl, rfl, rfl, rfl, fun _ => rfl, fun _ => rfl⟩
  have hwf : (Instr.noInstruction d n).WellFormed := decide_eq_true hfit
  exact decode_encode hwf

/-! ## Commands and steps out of turn -/

/-- Outside Running the model stops by name (log 6). -/
theorem step_outside_running {s : State} (h : s.fsm ≠ .running) : step s = .fault (.stepOutsideRunning s.fsm) := by
  unfold step
  cases hf : s.fsm with
  | running => exact absurd hf h
  | ready | halted | faulted => rfl

/-- Settles O35: `step_answers` in Running, `step_outside_running` elsewhere. -/
theorem stepIsDefinedExactlyInRunning : Obligations.StepIsDefinedExactlyInRunning := by
  unfold Obligations.StepIsDefinedExactlyInRunning
  exact fun s => ⟨step_answers, step_outside_running⟩

/-- A RUN outside Ready is refused (R91). -/
theorem run_outside_ready {s : State} (h : s.fsm ≠ .ready) : run s = .refused (.runOutsideReady s.fsm) := by
  unfold run
  cases hf : s.fsm with
  | ready => exact absurd hf h
  | running | halted | faulted => rfl

/-- A LOAD in Running is refused (R200). -/
theorem load_while_running {s : State} (h : s.fsm = .running) (words : List Int) :
    load words s = .refused .loadWhileRunning := by
  simp [load, h]

/-- Settles O52: the two refusals. -/
theorem commandsOutOfTurnAreRefused : Obligations.CommandsOutOfTurnAreRefused := by
  unfold Obligations.CommandsOutOfTurnAreRefused
  exact fun s => ⟨run_outside_ready, load_while_running⟩

/-! ## The ways a step ends -/

/-- An execute phase leaves fsm alone, halts by a halt, or raises a fault. -/
theorem ExecEffect.fsm_cases {i : Instr} {s u : State} (e : ExecEffect i s u) :
    (u.fsm = s.fsm ∧ ∀ d n, i ≠ .halt d n) ∨ ((∃ d n, i = .halt d n) ∧ u = enterHalted s) ∨
      ∃ k, u = raise k s := by
  cases e with
  | jumps _ _ hi | fallsThrough _ _ hi | stores _ _ hi => exact .inl ⟨rfl, by simp [hi]⟩
  | writesReg d v hr => exact .inl ⟨rfl, by rintro _ _ rfl; cases hr⟩
  | halts d n hi => exact .inr (.inl ⟨⟨d, n, hi⟩, rfl⟩)
  | badAddress | badOpcode => exact .inr (.inr ⟨_, rfl⟩)

/-- What RUN's reply Ok says of the state it is read from (R90). -/
theorem runReply_eq_ok {s : State} {k : Nat} : runReply s = some (.ok k) ↔ s.fsm = .halted ∧ s.ic = k := by
  cases h : s.fsm <;> simp [runReply, h]

/-- What RUN's reply Err says of the state it is read from (R90). -/
theorem runReply_eq_err {s : State} {f : RuntimeFault} :
    runReply s = some (.err f) ↔ s.fsm = .faulted ∧ s.fault = some f := by
  cases h : s.fsm <;> simp [runReply, h]

/-- A state with a reply is Halted or Faulted. -/
theorem fsm_of_runReply {s : State} {r : RunReply} (h : runReply s = some r) : s.fsm = .halted ∨ s.fsm = .faulted := by
  cases r with
  | ok k => exact .inl (runReply_eq_ok.mp h).1
  | err f => exact .inr (runReply_eq_err.mp h).1

theorem runReply_raise (f : RuntimeFault) (s : State) : runReply (raise f s) = some (.err f) := rfl

/-- A step stays in Running, counted and below the ceiling, or ends the run with a reply (R88, R89). -/
theorem step_running_or_reply {s t : State} (h : step s = .next t) :
    (t.fsm = .running ∧ t.ic = s.ic + 1 ∧ s.ic + 1 < s.config.insnLimit) ∨ ∃ r, runReply t = some r := by
  obtain ⟨hf, ⟨-, rfl⟩ | ⟨-, u, e, rfl⟩⟩ := step_cases h
  · exact .inr ⟨_, runReply_raise _ s⟩
  obtain ⟨heq, hroom⟩ | ⟨heq, -, -⟩ := limitCheck_cases u
  · have hic : u.ic = s.ic + 1 := e.ic_eq
    have hcfg : u.config = s.config := e.config_eq
    rw [heq]
    obtain ⟨hfsm, -⟩ | ⟨-, rfl⟩ | ⟨k, rfl⟩ := e.fsm_cases
    · have hrun : u.fsm = .running := hfsm.trans hf
      rw [← hic, ← hcfg]
      exact .inl ⟨hrun, rfl, hroom hrun⟩
    · exact .inr ⟨_, runReply_eq_ok.mpr ⟨rfl, rfl⟩⟩
    · exact .inr ⟨_, runReply_raise k _⟩
  · rw [heq]
    exact .inr ⟨_, runReply_raise _ u⟩

/-- From a state that meets the invariant a step fails its fetch at pc 1000, halts at a halt word, or runs any other
instruction to the limit check with no fault (R92). -/
theorem SafeState.step_cases {s t : State} (hs : SafeState s) (h : step s = .next t) :
    (s.pc.toNat = 1000 ∧ t = raise .addressError s) ∨
    (s.pc.toNat ≤ 999 ∧ (∃ d n, decode (readMem s s.pc.toNat) = .halt d n) ∧ t = enterHalted (countInstruction s)) ∨
    (s.pc.toNat ≤ 999 ∧ (∀ d n, decode (readMem s s.pc.toNat) ≠ .halt d n) ∧
      ∃ u, u.fsm = .running ∧ u.fault = none ∧ u.ic = s.ic + 1 ∧ u.config = s.config ∧ t = limitCheck u) := by
  obtain ⟨hf, ⟨hout, rfl⟩ | ⟨hpc, u, e, rfl⟩⟩ := Machine.step_cases h
  · exact .inl ⟨Nat.le_antisymm hs.pcRange hout, rfl⟩
  have hfault : u.fault = none := (e.no_fault hs.regs (hs.decode_ne_noInstruction _)).1.trans (hs.fault_none hf)
  obtain ⟨hfsm, hhalt⟩ | ⟨hhalt, rfl⟩ | ⟨k, rfl⟩ := e.fsm_cases
  · exact .inr (.inr ⟨hpc, hhalt, u, hfsm.trans hf, hfault, e.ic_eq, e.config_eq, rfl⟩)
  · exact .inr (.inl ⟨hpc, hhalt, limitCheck_pass nofun⟩)
  · cases hfault

/-- Settles O36, by the three ways a step of a safe state ends. -/
theorem stepTransitionsOfTheStateMachine : Obligations.StepTransitionsOfTheStateMachine := by
  unfold Obligations.StepTransitionsOfTheStateMachine
  intro s t hs h
  obtain ⟨hrunning, -⟩ := step_cases h
  refine ⟨hrunning, ?_⟩
  obtain ⟨hpc, rfl⟩ | ⟨hpc, hhalt, rfl⟩ | ⟨hpc, hhalt, u, hf, -, hic, hcfg, rfl⟩ := hs.step_cases h
  · simp [hpc]
  · have hin : s.pc.toNat ≠ 1000 := by omega
    obtain ⟨d, n, hdec⟩ := hhalt
    simp [hpc, hin, hdec]
  · have hin : s.pc.toNat ≠ 1000 := by omega
    obtain ⟨heq, hroom⟩ | ⟨heq, -, hceil⟩ := limitCheck_cases u
    · have hlt := hroom hf
      rw [hic, hcfg] at hlt
      simp [heq, hf, hhalt, hin, hlt]
    · rw [hic, hcfg] at hceil
      simp [heq, hhalt, hceil]

/-! ## RUN's loop -/

/-- What the loop answers is some number of steps away, within its fuel. -/
theorem runLoop_stepsTo {fuel : Nat} {s t : State} (h : runLoop fuel s = .next t) :
    ∃ k ≤ fuel, StepsTo k s t := by
  induction fuel generalizing s with
  | zero => cases h; exact ⟨0, Nat.le_refl 0, .none t⟩
  | succ fuel ih =>
    by_cases hf : s.fsm = .running
    · obtain ⟨u, hu⟩ := step_answers hf
      rw [runLoop_step hu] at h
      obtain ⟨k, hk, hsteps⟩ := ih h
      exact ⟨k + 1, Nat.succ_le_succ hk, .more k s u t hu hsteps⟩
    · rw [runLoop_stopped hf] at h
      cases h
      exact ⟨0, Nat.zero_le _, .none t⟩

/-- With fuel for the instructions below the ceiling and one step more, the loop ends in a state with a reply (R89). -/
theorem runLoop_reply {fuel : Nat} {s t : State} (hf : s.fsm = .running) (hfuel : s.config.insnLimit ≤ s.ic + fuel)
    (h : runLoop (fuel + 1) s = .next t) : ∃ r, runReply t = some r := by
  induction fuel generalizing s with
  | zero =>
    obtain ⟨u, hu⟩ := step_answers hf
    rw [runLoop_step hu] at h
    cases h
    exact (step_running_or_reply hu).resolve_left (by omega)
  | succ fuel ih =>
    obtain ⟨u, hu⟩ := step_answers hf
    rw [runLoop_step hu] at h
    obtain ⟨hrun, hic, -⟩ | ⟨r, hr⟩ := step_running_or_reply hu
    · refine ih hrun ?_ h
      rw [step_config hu, hic]
      omega
    · have hstop : u.fsm ≠ .running := by rcases fsm_of_runReply hr with e | e <;> simp [e]
      rw [runLoop_stopped hstop] at h
      cases h
      exact ⟨r, hr⟩

/-- A RUN from Ready answers what its loop comes to, once that has a reply (R90). -/
theorem run_of_runLoop {s t : State} {r : RunReply} (hready : s.fsm = .ready)
    (hloop : runLoop (runFuel s) (startRun s) = .next t) (hr : runReply t = some r) : run s = .next (t, r) := by
  simp [run, hready, hloop, hr]

/-- Settles O53: the loop's fuel is one more than INSN_LIMIT, so it ends in a state with a reply. -/
theorem runAlwaysEnds : Obligations.RunAlwaysEnds := by
  unfold Obligations.RunAlwaysEnds
  intro s hready
  obtain ⟨t, ht⟩ := runLoop_answers (runFuel s) (startRun s)
  obtain ⟨k, hk, hsteps⟩ := runLoop_stepsTo ht
  obtain ⟨r, hr⟩ := runLoop_reply (startRun_fsm s) (Nat.le_add_left _ _) ht
  exact ⟨t, r, k, run_of_runLoop hready ht hr, fsm_of_runReply hr, hk, hsteps⟩

/-! ## What a RUN keeps and returns -/

/-- A RUN from a state that meets the invariant establishes what entering Running does and every step keeps. -/
theorem run_keeps {P : State → Prop} {s t : State} {r : RunReply} (hs : SafeState s) (h : run s = .next (t, r))
    (hstart : s.fsm = .ready → SafeState (startRun s) → P (startRun s))
    (hstep : ∀ u v, P u → step u = .next v → P v) : P t := by
  obtain ⟨hready, hloop, -⟩ := run_cases h
  exact runLoop_keeps hstep (hstart hready (safeState_startRun hs hready)) hloop

/-- Settles O44: entering Running and every step keep the invariant. -/
theorem runKeepsTheInvariant : Obligations.RunKeepsTheInvariant := by
  unfold Obligations.RunKeepsTheInvariant
  exact fun s t r hs h => run_keeps hs h (fun _ hstart => hstart) stepKeepsTheInvariant

/-- The invariant of a run: beside `SafeState`, a halted state stands at its halt word and an AddressError below the
ceiling. -/
structure RunInvariant (s : State) : Prop where
  safe : SafeState s
  haltedAt : s.fsm = .halted → ∃ d n, decode (readMem s s.pc.toNat) = .halt d n
  addressErrorBelow : s.fault = some .addressError → s.ic < s.config.insnLimit

/-- A safe Running state has neither halted nor faulted. -/
theorem SafeState.runInvariant {s : State} (hs : SafeState s) (hf : s.fsm = .running) : RunInvariant s where
  safe := hs
  haltedAt := by simp [hf]
  addressErrorBelow := by simp [hs.fault_none hf]

/-- A step of a safe state gives the invariant of a run: pc and memory stand at a halt, and a failed fetch does not count. -/
theorem SafeState.runInvariant_step {s t : State} (hs : SafeState s) (h : step s = .next t) : RunInvariant t := by
  have ht : SafeState t := stepKeepsTheInvariant s t hs h
  obtain ⟨hrunning, -⟩ := Machine.step_cases h
  obtain ⟨-, rfl⟩ | ⟨-, hhalt, rfl⟩ | ⟨-, -, u, hf, hfault, -, -, rfl⟩ := hs.step_cases h
  · exact ⟨ht, nofun, fun _ => hs.icRunning hrunning⟩
  · refine ⟨ht, fun _ => hhalt, fun hk => ?_⟩
    rw [enterHalted_fault, countInstruction_fault, hs.fault_none hrunning] at hk
    cases hk
  · obtain ⟨heq, -⟩ | ⟨heq, -, -⟩ := limitCheck_cases u
    · exact ⟨ht, by simp [heq, hf], by simp [heq, hfault]⟩
    · exact ⟨ht, by simp [heq], by simp [heq]⟩

/-- A RUN that answers ends in a state with the invariant of a run. -/
theorem run_runInvariant {s t : State} {r : RunReply} (hs : SafeState s) (h : run s = .next (t, r)) : RunInvariant t :=
  run_keeps hs h (fun _ hstart => hstart.runInvariant (startRun_fsm s)) fun _ _ hu => hu.safe.runInvariant_step

theorem run_config {s t : State} {r : RunReply} (h : run s = .next (t, r)) : t.config = s.config := by
  obtain ⟨-, -, -, hrun⟩ := configurationIsNeverWritten
  exact hrun s t r h

/-- Steps that end in no fault each counted one instruction (R82): only a failed fetch does not, and it ends the run. -/
theorem StepsTo.ic_eq {k : Nat} {s t : State} (h : StepsTo k s t) (hf : t.fsm ≠ .faulted) : t.ic = s.ic + k := by
  induction h with
  | none s => rfl
  | more k s u t hstep hrest ih =>
    have hcount : u.ic = s.ic + 1 := by
      obtain ⟨-, ⟨-, rfl⟩ | ⟨-, v, e, rfl⟩⟩ := step_cases hstep
      · cases hrest with
        | none => exact absurd rfl hf
        | more k _ v _ hnext _ => cases (step_cases hnext).1
      · rw [limitCheck_ic, e.ic_eq, countInstruction_ic]
    rw [ih hf, hcount]
    omega

/-- Settles O54: the run starts at ic 0 and counts every step, and the rest is the invariant of a run. -/
theorem runReturnsTheInstructionCount : Obligations.RunReturnsTheInstructionCount := by
  unfold Obligations.RunReturnsTheInstructionCount
  intro s t k hs h
  obtain ⟨hready, hloop, hreply⟩ := run_cases h
  obtain ⟨hhalted, rfl⟩ := runReply_eq_ok.mp hreply
  obtain ⟨hsafe, hhalt, -⟩ := run_runInvariant hs h
  have hfault : t.fault = none := by
    rw [← Option.not_isSome_iff_eq_none, hsafe.faultStatus, hhalted]
    nofun
  obtain ⟨k, -, hsteps⟩ := runLoop_stepsTo hloop
  have hcount : t.ic = k := by
    rw [hsteps.ic_eq (by simp [hhalted]), startRun_ic, (hs.readyZero hready).2, Nat.zero_add]
  refine ⟨hhalted, hfault, rfl, ?_, hhalt hhalted, hcount ▸ hsteps⟩
  rw [← run_config h]
  exact hsafe.icBound

/-- Settles O55: the invariant leaves an AddressError at pc 1000 and a LimitExceededError at the ceiling. -/
theorem runReturnsTheFault : Obligations.RunReturnsTheFault := by
  unfold Obligations.RunReturnsTheFault
  intro s t f hs h
  obtain ⟨-, -, hreply⟩ := run_cases h
  obtain ⟨hfaulted, hfault⟩ := runReply_eq_err.mp hreply
  obtain ⟨hsafe, -, hbelow⟩ := run_runInvariant hs h
  rw [← run_config h]
  refine ⟨hfaulted, hfault, ?_⟩
  cases f with
  | opcodeError => exact absurd hfault hsafe.noOpcodeError
  | addressError => exact .inl ⟨rfl, hsafe.addressErrorAt hfault, hbelow hfault⟩
  | limitExceededError => exact .inr ⟨rfl, hsafe.limitErrorAt hfault⟩

end Sys2Proof.Machine
end

section
/-!
PROOFS. The statements of spec/41_control_transfer.md: what jump-if-nonzero and halt do, and that a taken jump to its own
address runs into the ceiling. First the step of a halt and of a self-jump, then the run loop of a self-jump.
-/

namespace Sys2Proof.Machine

/-! ## jump-if-nonzero -/

/-- The word `0dn` has no hundreds (R60, R100). -/
theorem encode_jumpIfNonzero (d n : Digit) : encode (.jumpIfNonzero d n) = BitVec.ofNat 10 (10 * d.val + n.val) := by
  rw [encode, wordOf, Nat.mul_zero, Nat.zero_add]

theorem decode_jumpIfNonzero_word (d n : Digit) :
    decode (BitVec.ofNat 10 (10 * d.val + n.val)) = .jumpIfNonzero d n := by
  rw [← encode_jumpIfNonzero]
  exact decode_encode rfl

/-- Settles O7: taken, only pc is assigned; not taken, only pc advances. -/
theorem jumpIfNonzeroEffect : Obligations.JumpIfNonzeroEffect := by
  unfold Obligations.JumpIfNonzeroEffect
  intro d n s
  refine ⟨decode_jumpIfNonzero_word d n, ?_⟩
  by_cases hn : (readReg s n).toNat = 0
  · exact ⟨_, exec_jump_not_taken hn, fun hne => absurd hn hne, fun _ => pc_succ_toNat,
      fun _ => rfl, fun _ => rfl, rfl, rfl, rfl, rfl⟩
  · exact ⟨_, exec_jump_taken hn, fun _ => rfl, fun h0 => absurd h0 hn,
      fun _ => rfl, fun _ => rfl, rfl, rfl, rfl, rfl⟩

/-! ## halt -/

theorem decode_halt_word (d n : Digit) : decode (BitVec.ofNat 10 (100 + 10 * d.val + n.val)) = .halt d n :=
  decode_encode (i := .halt d n) rfl

/-- The step of a halt counts it and enters Halted; out of Running, it passes the limit check at any count (R88, R101). -/
theorem step_halt {d n : Digit} {s : State} (hi : AboutToRun (.halt d n) s) :
    step s = .next (enterHalted (countInstruction s)) := by
  rw [step_of_aboutToRun hi (exec_halt d n _), limitCheck_pass (s := enterHalted _) nofun]

/-- Settles O8: the execute phase writes fsm alone, and the step adds the count. -/
theorem haltEffect : Obligations.HaltEffect := by
  unfold Obligations.HaltEffect
  constructor
  · intro d n s
    exact ⟨decode_halt_word d n, _, exec_halt d n s, rfl, rfl, rfl, rfl, rfl, fun _ => rfl, fun _ => rfl⟩
  · intro d n s hi
    exact ⟨_, step_halt hi, rfl, rfl, rfl, rfl⟩

/-! ## The taken jump to its own address -/

section SelfJump

variable {d n : Digit} {s : State}

/-- The step of a taken jump to its own address does nothing but count and check the limit. -/
theorem step_self_jump (hi : AboutToRun (.jumpIfNonzero d n) s) (hn : (readReg s n).toNat ≠ 0)
    (hself : readReg s d = s.pc) : step s = .next (limitCheck (countInstruction s)) := by
  have hexec : exec (.jumpIfNonzero d n) (countInstruction s) = .next (jumpTo (countInstruction s) (readReg s d)) :=
    exec_jump_taken hn
  rw [hself] at hexec
  exact step_of_aboutToRun hi hexec

/-- The run loop of a taken jump to its own address, with fuel up to the ceiling, raises LimitExceededError there in a state
that differs in the count alone: each step below the ceiling leaves the same jump to run (R100 (c)). -/
theorem runLoop_self_jump {fuel : Nat} (hi : AboutToRun (.jumpIfNonzero d n) s) (hn : (readReg s n).toNat ≠ 0)
    (hself : readReg s d = s.pc) (hroom : s.ic < s.config.insnLimit) (hfuel : s.config.insnLimit ≤ s.ic + fuel) :
    runLoop fuel s = .next (raise .limitExceededError { s with ic := s.config.insnLimit }) := by
  induction fuel generalizing s with
  | zero => omega
  | succ fuel ih =>
    have hstep := step_self_jump hi hn hself
    by_cases hnext : s.ic + 1 < s.config.insnLimit
    · rw [limitCheck_pass fun _ => hnext] at hstep
      rw [runLoop_step hstep]
      exact ih (s := countInstruction s) hi hn hself hnext (by rw [countInstruction_config, countInstruction_ic]; omega)
    · have hceil : s.config.insnLimit = s.ic + 1 := by omega
      rw [limitCheck_fail (s := countInstruction s) hi.1 (Nat.le_of_eq hceil)] at hstep
      rw [runLoop_step hstep, runLoop_stopped (s := raise _ _) nofun, hceil]
      rfl

end SelfJump

/-- Settles O39: the loop ends in the state it began in, but for the fault and a count of INSN_LIMIT. -/
theorem selfJumpRunsIntoTheCeiling : Obligations.SelfJumpRunsIntoTheCeiling := by
  unfold Obligations.SelfJumpRunsIntoTheCeiling
  intro d n s fuel hi hn hself hroom hfuel
  exact ⟨_, runLoop_self_jump hi hn hself hroom hfuel, rfl, rfl, rfl, rfl, fun _ => rfl, fun _ => rfl⟩

end Sys2Proof.Machine
end

section
/-!
PROOFS. The statements of spec/42_register_arithmetic.md: the ALU reduces the exact result mod 1000, its laws are those of
the ring of integers mod 1000, and what opcodes 2 to 7 leave in their register. First the laws of the ALU, one lemma each,
then what an execute phase with a register result answers.
-/

namespace Sys2Proof.Machine

/-! ## The ALU -/

theorem add1000_le (a b : Word) : (add1000 a b).toNat ≤ 999 := by
  rw [add1000_toNat]
  omega

theorem mul1000_le (a b : Word) : (mul1000 a b).toNat ≤ 999 := by
  rw [mul1000_toNat]
  omega

/-- Settles O17: the ALU's two reductions, the non-zero test, and the spec's two examples of what truncation would give. -/
theorem aluReducesModThousand : Obligations.AluReducesModThousand := by
  unfold Obligations.AluReducesModThousand
  refine ⟨fun a b _ _ => ?_, by decide, by decide⟩
  exact ⟨add1000_toNat a b, add1000_le a b, mul1000_toNat a b, mul1000_le a b, nz_iff a⟩

/-! ## The ring of integers mod 1000 (R127) -/

theorem add1000_comm (a b : Word) : add1000 a b = add1000 b a := by
  rw [add1000, add1000, Nat.add_comm]

theorem mul1000_comm (a b : Word) : mul1000 a b = mul1000 b a := by
  rw [mul1000, mul1000, Nat.mul_comm]

/-- The inner reduction of a nested sum is absorbed by the outer one. -/
theorem add1000_assoc (a b c : Word) : add1000 (add1000 a b) c = add1000 a (add1000 b c) := by
  apply BitVec.eq_of_toNat_eq
  simp only [add1000_toNat, Nat.mod_add_mod, Nat.add_mod_mod, Nat.add_assoc]

/-- The inner reduction of a nested product is absorbed by the outer one. -/
theorem mul1000_assoc (a b c : Word) : mul1000 (mul1000 a b) c = mul1000 a (mul1000 b c) := by
  apply BitVec.eq_of_toNat_eq
  simp only [mul1000_toNat, Nat.mod_mul_mod, Nat.mul_mod_mod, Nat.mul_assoc]

theorem mul1000_add1000 (a b c : Word) : mul1000 a (add1000 b c) = add1000 (mul1000 a b) (mul1000 a c) := by
  apply BitVec.eq_of_toNat_eq
  simp only [mul1000_toNat, add1000_toNat, Nat.mul_mod_mod, Nat.mod_add_mod, Nat.add_mod_mod, Nat.mul_add]

theorem add1000_zero {a : Word} (ha : a.toNat ≤ 999) : add1000 a 0 = a :=
  add1000_immOperand_zero ha

theorem mul1000_one {a : Word} (ha : a.toNat ≤ 999) : mul1000 a 1 = a := by
  have hone : (1 : Word).toNat = 1 := rfl
  apply BitVec.eq_of_toNat_eq
  rw [mul1000_toNat, hone, Nat.mul_one]
  exact Nat.mod_eq_of_lt (by omega)

/-- (1000 - k) mod 1000 is the additive inverse of k (R127 (d)). -/
theorem add1000_inverse {b : Word} (hb : b.toNat ≤ 999) :
    add1000 b (BitVec.ofNat 10 ((1000 - b.toNat) % 1000)) = 0 := by
  have hzero : (0 : Word).toNat = 0 := rfl
  apply BitVec.eq_of_toNat_eq
  rw [add1000_toNat, BitVec.toNat_ofNat, hzero]
  omega

/-- Settles O18: the laws one by one; an addition is undone by regrouping it with the inverse. -/
theorem aluFormsTheRingModThousand : Obligations.AluFormsTheRingModThousand := by
  unfold Obligations.AluFormsTheRingModThousand
  intro a b c ha hb _
  refine ⟨add1000_comm a b, mul1000_comm a b, add1000_assoc a b c, mul1000_assoc a b c, mul1000_add1000 a b c,
    add1000_zero ha, mul1000_one ha, ?_⟩
  rw [add1000_assoc, add1000_inverse hb, add1000_zero ha]

/-! ## The execute phase of an instruction with a register result -/

section RegResult

variable {i : Instr} {s : State} {d : RegIndex} {v : Word}

/-- The result stands in x[d], pc advances, and the rest of the control state stays (R85). -/
theorem exec_result (hr : regResult i s = some (d, v)) :
    ∃ t, exec i s = .next t ∧ readReg t d = v ∧ PcAdvanced s t ∧ SameControl s t := by
  obtain ⟨-, -, hcontrol⟩ := writeRegAndAdvance_frame s d v
  exact ⟨_, exec_of_regResult hr, readReg_writeRegAndAdvance_same s d v, pc_succ_toNat, hcontrol⟩

/-- `exec_result` for a result known as a natural number. -/
theorem exec_result_toNat {k : Nat} (hr : regResult i s = some (d, v)) (hv : v.toNat = k) :
    ∃ t, exec i s = .next t ∧ (readReg t d).toNat = k ∧ PcAdvanced s t ∧ SameControl s t := by
  obtain ⟨t, ht, hd, hpc, hcontrol⟩ := exec_result hr
  exact ⟨t, ht, by rw [hd, hv], hpc, hcontrol⟩

end RegResult

/-! ## Opcodes 2 to 7 -/

/-- Settles O10: the result is the immediate. -/
theorem loadImmediateResult : Obligations.LoadImmediateResult := by
  unfold Obligations.LoadImmediateResult
  exact fun d n s => ⟨decode_encode (i := .loadImmediate d n) rfl, exec_result_toNat rfl (immOperand_toNat n)⟩

/-- Settles O11: the result is the reduced sum with the immediate. -/
theorem addImmediateResult : Obligations.AddImmediateResult := by
  unfold Obligations.AddImmediateResult
  exact fun d n s =>
    ⟨decode_encode (i := .addImmediate d n) rfl, exec_result_toNat rfl (by rw [add1000_toNat, immOperand_toNat])⟩

/-- Settles O12: the result is the reduced product with the immediate. -/
theorem mulImmediateResult : Obligations.MulImmediateResult := by
  unfold Obligations.MulImmediateResult
  exact fun d n s =>
    ⟨decode_encode (i := .mulImmediate d n) rfl, exec_result_toNat rfl (by rw [mul1000_toNat, immOperand_toNat])⟩

/-- Settles O13: the result is the source register's word itself. -/
theorem moveResult : Obligations.MoveResult := by
  unfold Obligations.MoveResult
  exact fun d n s => ⟨decode_encode (i := .move d n) rfl, exec_result rfl⟩

/-- Settles O14: the result is the reduced sum of the registers before the write. -/
theorem addRegsResult : Obligations.AddRegsResult := by
  unfold Obligations.AddRegsResult
  exact fun d n s => ⟨decode_encode (i := .addRegs d n) rfl, exec_result_toNat rfl (add1000_toNat _ _)⟩

/-- Settles O15: the result is the reduced product of the registers before the write. -/
theorem mulRegsResult : Obligations.MulRegsResult := by
  unfold Obligations.MulRegsResult
  exact fun d n s => ⟨decode_encode (i := .mulRegs d n) rfl, exec_result_toNat rfl (mul1000_toNat _ _)⟩

end Sys2Proof.Machine
end

section
/-!
PROOFS. The statements of spec/43_memory_access.md: what load-indirect and store-indirect do with an address in range and
with one out of range. First the out-of-range branch, which is the same for both.
-/

namespace Sys2Proof.Machine

/-- An address register out of range ends either instruction in AddressError with nothing else written (R175, D7). -/
theorem exec_addressFault {i : Instr} {d n : Digit} {s : State} (hi : i = .loadIndirect d n ∨ i = .storeIndirect d n)
    (hn : 999 < (readReg s n).toNat) :
    ∃ t, exec i s = .next t ∧ t.fsm = .faulted ∧ t.fault = some .addressError ∧
      t.pc = s.pc ∧ t.ic = s.ic ∧ t.config = s.config ∧ SameRegs s t ∧ SameMem s t :=
  ⟨_, exec_address_out_of_range hi hn, rfl, rfl, rfl, rfl, rfl, fun _ => rfl, fun _ => rfl⟩

/-- With the address in range, the stored cell reads as x[d], pc advances, and the rest of the control state stays. -/
theorem exec_stored {d n : Digit} {s : State} (hn : (readReg s n).toNat ≤ 999) :
    ∃ t, exec (.storeIndirect d n) s = .next t ∧ readMem t (readReg s n).toNat = readReg s d ∧
      PcAdvanced s t ∧ SameControl s t :=
  ⟨_, exec_store_in_range hn, readMem_writeMem_same s _ _, pc_succ_toNat, rfl, rfl, rfl, rfl⟩

/-- Settles O19: with the address in range the loaded cell is the instruction's register result; out of range it faults. -/
theorem loadIndirectEffect : Obligations.LoadIndirectEffect := by
  unfold Obligations.LoadIndirectEffect
  intro d n s
  refine ⟨decode_encode (i := .loadIndirect d n) rfl, fun hn => ?_, exec_addressFault (.inl rfl)⟩
  exact exec_result (i := .loadIndirect d n) (if_pos hn)

/-- Settles O20: with the address in range the cell is written and pc advances; out of range it faults. -/
theorem storeIndirectEffect : Obligations.StoreIndirectEffect := by
  unfold Obligations.StoreIndirectEffect
  intro d n s
  exact ⟨decode_encode (i := .storeIndirect d n) rfl, exec_stored, exec_addressFault (.inr rfl)⟩

end Sys2Proof.Machine
end

section
/-!
PROOFS. The statements of spec/60_exceptions.md: what a fault of the execute phase leaves, which fault a step raises, how pc
leaves memory, and which faults a reachable state can hold. First the step of a faulting execute phase, when a step's fsm is
Faulted, and where an execute phase leaves pc.
-/

namespace Sys2Proof.Machine

/-! ## A fault in the execute phase -/

/-- A fault of the execute phase passes the limit check: the step raises it in the counted state (R175, decision D7). -/
theorem step_of_exec_raise {i : Instr} {s : State} {k : RuntimeFault} (hi : AboutToRun i s)
    (h : exec i (countInstruction s) = .next (raise k (countInstruction s))) :
    step s = .next (raise k (countInstruction s)) := by
  rw [step_of_aboutToRun hi h, limitCheck_pass (s := raise _ _) nofun]

/-- Settles O33: both kinds only raise in the counted state, which differs from `s` in ic alone. -/
theorem executePhaseFaultLeavesTheState : Obligations.ExecutePhaseFaultLeavesTheState := by
  unfold Obligations.ExecutePhaseFaultLeavesTheState
  intro i s d n hi hcause
  have hexec : exec i (countInstruction s) =
      .next (raise (if i = .noInstruction d n then .opcodeError else .addressError) (countInstruction s)) := by
    rcases hcause with rfl | ⟨hindirect, hn⟩
    · rw [if_pos rfl, exec_noInstruction]
    · rw [if_neg (by rcases hindirect with rfl | rfl <;> nofun)]
      exact exec_address_out_of_range hindirect hn
  exact ⟨_, step_of_exec_raise hi hexec, rfl, rfl, rfl, rfl, rfl, fun _ => rfl, fun _ => rfl⟩

/-! ## The order of the checks -/

/-- Where an execute phase stays in Running with no fault, the limit check raises LimitExceededError if the counted
instruction reaches the ceiling, and nothing below it (R88). -/
theorem ExecEffect.limitCheck_fault {i : Instr} {s u : State} (e : ExecEffect i (countInstruction s) u)
    (hf : u.fsm = .running) (hfault : u.fault = none) :
    (limitCheck u).fault = if s.config.insnLimit ≤ s.ic + 1 then some .limitExceededError else none := by
  have hic : u.ic = s.ic + 1 := e.ic_eq
  have hcfg : u.config = s.config := e.config_eq
  rw [← hic, ← hcfg]
  split
  next hceil => rw [limitCheck_fail hf hceil, raise_fault]
  next hroom => rw [limitCheck_pass fun _ => Nat.lt_of_not_le hroom, hfault]

theorem limitCheck_faultStatus {u : State} (h : u.fsm = .faulted ↔ u.fault.isSome = true) :
    (limitCheck u).fsm = .faulted ↔ (limitCheck u).fault.isSome = true := by
  obtain ⟨heq, -⟩ | ⟨heq, -, -⟩ := limitCheck_cases u
  · rwa [heq]
  · simp [heq]

/-- From Running with no fault, an execute phase records a fault exactly if it enters Faulted (R28). -/
theorem ExecEffect.faultStatus {i : Instr} {s u : State} (e : ExecEffect i s u) (hf : s.fsm = .running)
    (hfault : s.fault = none) : u.fsm = .faulted ↔ u.fault.isSome = true := by
  cases e with
  | jumps | fallsThrough | writesReg | stores => simp [hf, hfault]
  | halts => simp [hfault]
  | badAddress | badOpcode => simp

/-- A step with no fault recorded before it records one exactly if it enters Faulted (R28, R175). -/
theorem step_faultStatus {s t : State} (hfault : s.fault = none) (h : step s = .next t) :
    t.fsm = .faulted ↔ t.fault.isSome = true := by
  obtain ⟨hf, ⟨-, rfl⟩ | ⟨-, u, e, rfl⟩⟩ := step_cases h
  · simp
  · exact limitCheck_faultStatus (e.faultStatus hf hfault)

/-- Settles O34: the fetch is checked first; after it, an execute phase that raises or halts passes the limit check with what
it left in `fault`, and any other leaves Running with no fault to that check. -/
theorem faultsAreCheckedInOrder : Obligations.FaultsAreCheckedInOrder := by
  unfold Obligations.FaultsAreCheckedInOrder
  intro s hf hfault
  obtain ⟨t, ht⟩ := step_answers hf
  refine ⟨t, ht, step_faultStatus hfault ht, ?_⟩
  obtain ⟨-, ⟨hout, rfl⟩ | ⟨hpc, u, e, rfl⟩⟩ := step_cases ht
  · rw [if_pos hout, raise_fault]
  rw [if_neg (Nat.not_lt.mpr hpc)]
  generalize decode (readMem s s.pc.toNat) = i at e
  have hlimit := e.limitCheck_fault
  cases e with
  | jumps d n hi | fallsThrough d n hi =>
    subst hi
    exact hlimit hf hfault
  | halts d n hi =>
    subst hi
    rw [limitCheck_pass (s := enterHalted _) nofun]
    exact hfault
  | writesReg d v hr =>
    rw [hlimit hf hfault]
    cases i with
    | jumpIfNonzero | halt | storeIndirect | noInstruction => cases hr
    | loadImmediate | addImmediate | mulImmediate | move | addRegs | mulRegs => rfl
    | loadIndirect d n => exact (if_neg (Nat.not_lt.mpr (regResult_load_in_range hr))).symm
  | stores d n hi hn =>
    subst hi
    rw [hlimit hf hfault]
    exact (if_neg (Nat.not_lt.mpr hn)).symm
  | badAddress d n hi hn =>
    rw [limitCheck_pass (s := raise _ _) nofun]
    rcases hi with rfl | rfl <;> exact (if_pos hn).symm
  | badOpcode d n hi =>
    subst hi
    rw [limitCheck_pass (s := raise _ _) nofun, raise_fault]

/-! ## How pc leaves memory -/

/-- An execute phase sets pc to a register's value, leaves it alone, or advances it, the last by neither a halt nor a taken
jump (R85). -/
theorem ExecEffect.pc_cases {i : Instr} {s u : State} (e : ExecEffect i s u) :
    (∃ d, u.pc = readReg s d) ∨ u.pc = s.pc ∨
      (u.pc = s.pc + 1 ∧ ∀ d n, i ≠ .halt d n ∧ (i = .jumpIfNonzero d n → (readReg s n).toNat = 0)) := by
  cases e with
  | jumps d => exact .inl ⟨d, rfl⟩
  | halts | badAddress | badOpcode => exact .inr (.inl rfl)
  | fallsThrough d n hi hn =>
    subst hi
    refine .inr (.inr ⟨rfl, fun d' n' => ⟨nofun, fun hjump => ?_⟩⟩)
    cases hjump
    exact hn
  | writesReg d v hr =>
    refine .inr (.inr ⟨rfl, fun _ _ => ⟨?_, ?_⟩⟩) <;> rintro rfl <;> cases hr
  | stores d n hi => exact .inr (.inr ⟨rfl, by simp [hi]⟩)

/-- Settles O37: the fetch succeeds, and a jump's target is a register's value, in 0..999; so pc advanced, by 1. -/
theorem pcLeavesMemoryOnlyFromTheLastCell : Obligations.PcLeavesMemoryOnlyFromTheLastCell := by
  unfold Obligations.PcLeavesMemoryOnlyFromTheLastCell
  intro s t hs h hpc hout
  obtain ⟨-, ⟨hfetch, -⟩ | ⟨-, u, e, rfl⟩⟩ := step_cases h
  · omega
  rw [limitCheck_pc] at hout ⊢
  obtain ⟨d, htarget⟩ | hsame | ⟨hadv, hinstr⟩ := e.pc_cases
  · have hreg : (readReg s d).toNat ≤ 999 := hs.regs d
    rw [htarget, readReg_countInstruction] at hout
    omega
  · rw [hsame, countInstruction_pc] at hout
    omega
  · rw [countInstruction_pc] at hadv
    rw [hadv, pc_succ_toNat hpc] at hout ⊢
    have hlast : s.pc.toNat = 999 := by omega
    rw [hlast] at hinstr
    exact ⟨hlast, by rw [hlast], hinstr⟩

/-! ## The faults of a reachable state -/

/-- Settles O46: the invariant, which every reachable state meets, says where each fault stands and bounds pc and ic. -/
theorem reachableFaults : Obligations.ReachableFaults := by
  unfold Obligations.ReachableFaults
  intro s hreach
  have hs := hreach.safeState
  exact ⟨hs.noOpcodeError, hs.addressErrorAt, hs.limitErrorAt, hs.faultStatus, hs.pcRange, hs.icBound⟩

end Sys2Proof.Machine
end

section
/-!
PROOFS. The statements of spec/70_reset_and_hazards.md: that power-on and LOAD meet the invariant, what a LOAD installs,
which error it returns and what a failed one leaves, and that a loaded state depends on the program alone. First when LOAD's
checks give each error, and the cells of a loaded state.
-/

namespace Sys2Proof.Machine

/-! ## Power-on (R205) -/

/-- Settles O41: `safeState_powerOn`, and the fields of a power-on are its arguments and the values of R205. -/
theorem powerOnWithAnyDrawMeetsTheInvariant : Obligations.PowerOnWithAnyDrawMeetsTheInvariant := by
  unfold Obligations.PowerOnWithAnyDrawMeetsTheInvariant
  intro c x m hc hx hr hw
  exact ⟨safeState_powerOn hc hx hr hw, powerOn_pc c x m, powerOn_ic c x m, powerOn_fsm c x m, powerOn_fault c x m,
    readReg_powerOn c x m, fun _ => rfl⟩

/-- Settles O40: the reset state is the power-on whose draw is 0 everywhere. -/
theorem resetStateMeetsTheInvariant : Obligations.ResetStateMeetsTheInvariant := by
  unfold Obligations.ResetStateMeetsTheInvariant
  have hreg (i : RegIndex) : (Vector.replicate 10 0 : Vector Word 10)[i] = 0 := Vector.getElem_replicate i.isLt
  have hsafe : SafeState State.reset :=
    safeState_powerOn (by decide) (fun i => by simp) empty_inRange reset_memory_wf
  exact ⟨hsafe, rfl, rfl, rfl, rfl, hreg, read_nil⟩

/-! ## LOAD and the invariant, and a LOAD that fails (R201 to R204) -/

/-- Settles O43: a LOAD changes nothing or leaves a loaded state, which is a power-on with the program as its draw. -/
theorem loadKeepsTheInvariant : Obligations.LoadKeepsTheInvariant := by
  unfold Obligations.LoadKeepsTheInvariant
  exact fun _ _ _ _ => safeState_of_load

/-- Settles O50: of the two ways a LOAD ends, the one with an error answers the state it began with. -/
theorem failedLoadChangesNothing : Obligations.FailedLoadChangesNothing := by
  unfold Obligations.FailedLoadChangesNothing
  intro words s t e h
  obtain ⟨-, ⟨_, -, hsame, -⟩ | ⟨-, -, hreply⟩⟩ := load_cases h
  · exact hsame
  · cases hreply

/-- Outside Running, the error a LOAD returns is the one its checks give. -/
theorem load_eq_err_iff {words : List Int} {s : State} {e : LoadError} (hf : s.fsm ≠ .running) :
    load words s = .next (s, .err e) ↔ checkWords 0 words = some e := by
  refine ⟨fun h => ?_, load_err hf⟩
  obtain ⟨-, ⟨_, hchecks, -, hreply⟩ | ⟨-, -, hreply⟩⟩ := load_cases h
  · cases hreply
    exact hchecks
  · cases hreply

/-- The checks from position `i` on give FormatError exactly when a word below position 1000 is out of range. -/
theorem checkWords_eq_formatError {i : Nat} {ws : List Int} :
    checkWords i ws = some .formatError ↔ ∃ j : Nat, i + j < 1000 ∧ ¬ wordInRange (ws.getD j 0) := by
  induction ws generalizing i with
  | nil =>
    have hzero : wordInRange 0 = true := rfl
    simp [checkWords, hzero]
  | cons w ws ih =>
    rw [checkWords_cons, ← Nat.or_exists_add_one]
    simp only [List.getD_cons_zero, List.getD_cons_succ]
    by_cases hi : 1000 ≤ i
    · rw [if_pos hi]
      simp only [Option.some.injEq, reduceCtorEq, false_iff, not_or, not_exists, not_and]
      exact ⟨by omega, fun j hj => by omega⟩
    · by_cases hw : wordInRange w
      · rw [if_neg hi, if_pos hw, ih]
        simp only [hw, not_true_eq_false, and_false, false_or, Nat.add_assoc, Nat.add_comm 1]
      · rw [if_neg hi, if_neg hw]
        exact iff_of_true rfl (.inl ⟨by omega, hw⟩)

/-- The checks give CapacityError exactly when the first 1000 words are in range and more follow. -/
theorem checkWords_eq_capacityError {ws : List Int} :
    checkWords 0 ws = some .capacityError ↔
      1000 < ws.length ∧ ∀ j : Nat, j < 1000 → wordInRange (ws.getD j 0) := by
  cases hc : checkWords 0 ws with
  | none =>
    obtain ⟨hlen, -⟩ := (checkWords_eq_none (Nat.zero_le _)).mp hc
    exact iff_of_false nofun fun ⟨hlong, _⟩ => by omega
  | some e =>
    cases e with
    | formatError =>
      obtain ⟨j, hj, hbad⟩ := checkWords_eq_formatError.mp hc
      exact iff_of_false nofun fun ⟨_, hvalid⟩ => hbad (hvalid j (by omega))
    | capacityError =>
      have hvalid (j : Nat) (hj : j < 1000) : wordInRange (ws.getD j 0) = true := by
        refine Decidable.byContradiction fun hbad => ?_
        rw [checkWords_eq_formatError.mpr ⟨j, by omega, hbad⟩] at hc
        cases hc
      refine iff_of_true rfl ⟨Nat.lt_of_not_le fun hlen => ?_, hvalid⟩
      have hwords : ∀ w ∈ ws, 0 ≤ w ∧ w ≤ 999 := by
        refine List.forall_mem_iff_forall_getElem.mpr fun j hj => (wordInRange_iff _).mp ?_
        rw [List.getElem_eq_getD 0]
        exact hvalid j (by omega)
      rw [(checkWords_eq_none (Nat.zero_le _)).mpr ⟨by omega, hwords⟩] at hc
      cases hc

/-- Settles O49: LOAD's error is its checks', and each error of the checks has its condition. -/
theorem firstOffendingWordDecidesTheLoadError : Obligations.FirstOffendingWordDecidesTheLoadError := by
  unfold Obligations.FirstOffendingWordDecidesTheLoadError
  intro words s hf
  simp only [load_eq_err_iff hf, ← wordInRange_iff]
  exact ⟨by simpa only [Nat.zero_add] using checkWords_eq_formatError (i := 0), checkWords_eq_capacityError⟩

/-! ## A LOAD that succeeds (R200, R206) -/

/-- A cell of a loaded state: the program's word at its position, and 0 beyond the program. -/
theorem readMem_loadedState (words : List Int) (s : State) (a : Nat) :
    readMem (loadedState words s) a = if a < words.length then BitVec.ofNat 10 (words.getD a 0).toNat else 0 := by
  have h := read_writeWords words zeroFilled 0 a
  simp only [Nat.zero_le, true_and, Nat.zero_add, Nat.sub_zero] at h
  exact h

/-- An integer in 0..999 is kept by the cell that it is written to. -/
theorem toNat_ofNat_of_inRange {w : Int} (hw : 0 ≤ w ∧ w ≤ 999) : ((BitVec.ofNat 10 w.toNat).toNat : Int) = w := by
  obtain ⟨hnonneg, hle⟩ := hw
  rw [BitVec.toNat_ofNat, Nat.mod_eq_of_lt (by omega), Int.toNat_of_nonneg hnonneg]

/-- Settles O48: the checks pass, and the loaded state's cells are `readMem_loadedState`. -/
theorem loadInstallsTheProgram : Obligations.LoadInstallsTheProgram := by
  unfold Obligations.LoadInstallsTheProgram
  intro words s hf hlen hwords
  have hchecks : checkWords 0 words = none := (checkWords_eq_none (Nat.zero_le _)).mpr ⟨by omega, hwords⟩
  refine ⟨_, load_ok hf hchecks, readReg_loadedState words s, rfl, rfl, rfl, rfl, rfl, fun a ha => ?_, fun a ha => ?_⟩
  · rw [readMem_loadedState, if_pos ha, ← List.getElem_eq_getD (h := ha) 0]
    exact toNat_ofNat_of_inRange (hwords _ (List.getElem_mem ha))
  · rw [readMem_loadedState, if_neg (by omega)]

/-- A LOAD that succeeds in one state succeeds, with the same state, in every other one with that INSN_LIMIT. -/
theorem load_ok_transfer {words : List Int} {s s' t : State} (hconfig : s.config = s'.config) (hf : s'.fsm ≠ .running)
    (h : load words s = .next (t, .ok)) : load words s' = .next (t, .ok) := by
  obtain ⟨-, ⟨_, -, -, hreply⟩ | ⟨hchecks, rfl, -⟩⟩ := load_cases h
  · cases hreply
  · rw [load_ok hf hchecks, loadedState, loadedState, hconfig]

/-- Settles O51: `load_ok_transfer`, to the other state and to a freshly constructed machine. -/
theorem loadIsolatesPrograms : Obligations.LoadIsolatesPrograms := by
  unfold Obligations.LoadIsolatesPrograms
  intro words s s' t hconfig hf h
  exact ⟨load_ok_transfer hconfig hf h,
    fun x mem => load_ok_transfer (s := s) (s' := .powerOn s.config x mem) rfl nofun h⟩

end Sys2Proof.Machine
end

section
/-!
PROOFS. The statement about the decoder's table of worked words (spec/95_test_vectors.md §2.1).
-/

namespace Sys2Proof.Machine

/-- A word decodes to the well-formed instruction whose encoding it is (R60). -/
theorem decode_eq_of_encode_eq {i : Instr} {w : Word} (hwf : i.WellFormed) (hw : encode i = w) : decode w = i := by
  rw [← hw, decode_encode hwf]

/-- Settles O1: each instruction of the table is well-formed, and its encoding computes to the table's word. -/
theorem decodesTheWorkedWords : Obligations.DecodesTheWorkedWords := by
  unfold Obligations.DecodesTheWorkedWords
  and_intros <;> exact decode_eq_of_encode_eq rfl rfl

end Sys2Proof.Machine
end
